-- ==== Sys2Proof/Word.lean ====
section
/-! DEFINITION. The word and byte types of the SVM core (spec 00_scope.md R6, R8, R9). -/

namespace Sys2Proof

/-- 32 bits: a register, a data-stack entry, a literal, a code word or a word index. Read as a signed number
(Int32 of R9) through `BitVec.toInt`, as an unsigned one (Word32) through `BitVec.toNat`. -/
abbrev Word := BitVec 32

/-- One byte field of an instruction word, or one byte of the bytecode (R46, R60). -/
abbrev Byte := BitVec 8

end Sys2Proof
end

