-- ==== Sys2Proof/Syntax.lean ====
section
/-! DEFINITION. The instruction set as syntax: flags, extensions, arguments and the 20 instructions of
spec/opcode_table.json (30_encoding.md R60 to R69). -/

namespace Sys2Proof

/-- The eight flags of a task (10_state.md R25). -/
inductive Flag where
  | eq | ne | lt | le | gt | ge | nz | z
  deriving DecidableEq, Repr

/-- The `ext` byte: NONE, one of the eight predicate suffixes, or an invalid code 9 .. 255, which has NONE semantics
(30_encoding.md R65, R68) and is kept so that no bit of a word is lost. -/
inductive Ext where
  | none
  | flag (f : Flag)
  | reserved (code : Byte)
  deriving DecidableEq, Repr

/-- A register number R0 .. R15 (10_state.md R15). -/
abbrev RegNum := Fin 16

/-- An argument: NONE, a register, an IMM with the literal word that follows, or an invalid type code 18 .. 255, which
has NONE semantics (30_encoding.md R64, R68). -/
inductive Arg where
  | none
  | reg (r : RegNum)
  | imm (literal : Word)
  | reserved (code : Byte)
  deriving DecidableEq, Repr

/-- The 20 instructions. Each is one word with an `ext` byte and two argument bytes, whatever it uses of them
(30_encoding.md R66, R69); `endVm` is END. -/
inductive Instr where
  | nop (ext : Ext) (arg1 arg2 : Arg)
  | endVm (ext : Ext) (arg1 arg2 : Arg)
  | mov (ext : Ext) (arg1 arg2 : Arg)
  | push (ext : Ext) (arg1 arg2 : Arg)
  | pop (ext : Ext) (arg1 arg2 : Arg)
  | add (ext : Ext) (arg1 arg2 : Arg)
  | sub (ext : Ext) (arg1 arg2 : Arg)
  | mul (ext : Ext) (arg1 arg2 : Arg)
  | div (ext : Ext) (arg1 arg2 : Arg)
  | and (ext : Ext) (arg1 arg2 : Arg)
  | or (ext : Ext) (arg1 arg2 : Arg)
  | xor (ext : Ext) (arg1 arg2 : Arg)
  | shl (ext : Ext) (arg1 arg2 : Arg)
  | shr (ext : Ext) (arg1 arg2 : Arg)
  | cmp (ext : Ext) (arg1 arg2 : Arg)
  | clf (ext : Ext) (arg1 arg2 : Arg)
  | jmp (ext : Ext) (arg1 arg2 : Arg)
  | inv (ext : Ext) (arg1 arg2 : Arg)
  | ret (ext : Ext) (arg1 arg2 : Arg)
  | sys (ext : Ext) (arg1 arg2 : Arg)
  deriving DecidableEq, Repr

end Sys2Proof
end

