-- ==== Sys2Proof/WellFormed.lean ====
section
/-! DEFINITION. Which terms of `Instr` stand for words: a reserved code must be one that has no name of its own
(30_encoding.md R64, R65, R68). -/

namespace Sys2Proof

/-- A reserved extension code is 9 .. 255 (R65). -/
def Ext.wellFormed : Ext → Bool
  | .none => true
  | .flag _ => true
  | .reserved code => decide (9 ≤ code.toNat)

/-- A reserved argument type is 18 .. 255 (R64). -/
def Arg.wellFormed : Arg → Bool
  | .none => true
  | .reg _ => true
  | .imm _ => true
  | .reserved code => decide (18 ≤ code.toNat)

/-- The operand fields of an instruction: its extension and its two arguments (R60). -/
def Instr.fields : Instr → Ext × Arg × Arg
  | .nop e a b => (e, a, b)
  | .endVm e a b => (e, a, b)
  | .mov e a b => (e, a, b)
  | .push e a b => (e, a, b)
  | .pop e a b => (e, a, b)
  | .add e a b => (e, a, b)
  | .sub e a b => (e, a, b)
  | .mul e a b => (e, a, b)
  | .div e a b => (e, a, b)
  | .and e a b => (e, a, b)
  | .or e a b => (e, a, b)
  | .xor e a b => (e, a, b)
  | .shl e a b => (e, a, b)
  | .shr e a b => (e, a, b)
  | .cmp e a b => (e, a, b)
  | .clf e a b => (e, a, b)
  | .jmp e a b => (e, a, b)
  | .inv e a b => (e, a, b)
  | .ret e a b => (e, a, b)
  | .sys e a b => (e, a, b)

/-- The extension of an instruction. -/
def Instr.ext (i : Instr) : Ext := i.fields.1

/-- The first argument of an instruction. -/
def Instr.arg1 (i : Instr) : Arg := i.fields.2.1

/-- The second argument of an instruction. -/
def Instr.arg2 (i : Instr) : Arg := i.fields.2.2

/-- An instruction is well formed when its three fields are: every field goes with every opcode (R66, R69). -/
def Instr.wellFormed (i : Instr) : Bool :=
  i.ext.wellFormed && i.arg1.wellFormed && i.arg2.wellFormed

end Sys2Proof
end

