-- ==== Sys2Proof/Decode.lean ====
section
/-! DEFINITION. The decoder, total on any words and any bytes, and the encoder (30_encoding.md R60 to R71,
20_memory.md R46). -/

namespace Sys2Proof

/-- Byte `k` of a word, byte 0 the least significant (00_scope.md R8). -/
def byteOf (w : Word) (k : Nat) : Byte := w.extractLsb' (8 * k) 8

/-- The word of four bytes, the first the least significant: `b0 | b1 << 8 | b2 << 16 | b3 << 24` (20_memory.md R46,
30_encoding.md R61). -/
def joinBytes (b0 b1 b2 b3 : Byte) : Word :=
  b0.setWidth 32 ||| (b1.setWidth 32 <<< 8) ||| (b2.setWidth 32 <<< 16) ||| (b3.setWidth 32 <<< 24)

/-- The four bytes of a word in the order of the bytecode: little-endian (R46). -/
def bytesOfWord (w : Word) : List Byte := [byteOf w 0, byteOf w 1, byteOf w 2, byteOf w 3]

/-- The bytecode of a sequence of words (R46). -/
def bytesOfWords : List Word → List Byte
  | [] => []
  | w :: ws => bytesOfWord w ++ bytesOfWords ws

/-- The whole words at the start of a byte sequence (R46). -/
def wordsOfBytes : List Byte → List Word
  | b0 :: b1 :: b2 :: b3 :: rest => joinBytes b0 b1 b2 b3 :: wordsOfBytes rest
  | _ => []

/-- The instruction word of its four byte fields (30_encoding.md R61). -/
def pack (op ext arg1 arg2 : Byte) : Word := joinBytes op ext arg1 arg2

/-- The four byte fields of an instruction word, in the order op, ext, arg1, arg2 (R61). -/
def unpack (w : Word) : Byte × Byte × Byte × Byte := (byteOf w 0, byteOf w 1, byteOf w 2, byteOf w 3)

/-- Why a sequence of words is no instruction. -/
inductive DecodeError where
  /-- There is no instruction word at all. -/
  | noWord
  /-- An argument's type is IMM and its literal word is missing (40_cycle.md R91). -/
  | immPastEnd
  /-- The opcode byte is 20 .. 255; the instruction has `literals` literal words (30_encoding.md R63, R67). -/
  | unknownOpcode (op : Byte) (literals : Nat)
  deriving DecidableEq, Repr

/-- The extension an `ext` byte stands for (30_encoding.md R65). -/
def decodeExt (b : Byte) : Ext :=
  match b.toNat with
  | 0 => .none
  | 1 => .flag .eq
  | 2 => .flag .ne
  | 3 => .flag .lt
  | 4 => .flag .le
  | 5 => .flag .gt
  | 6 => .flag .ge
  | 7 => .flag .nz
  | 8 => .flag .z
  | _ => .reserved b

/-- The argument an argument-type byte stands for, with the words left after it: an IMM takes the next word as its
literal (30_encoding.md R62, R64). -/
def decodeArg (b : Byte) (rest : List Word) : Except DecodeError (Arg × List Word) :=
  if b.toNat = 0 then .ok (.none, rest)
  else if b.toNat ≤ 16 then .ok (.reg (Fin.ofNat 16 (b.toNat - 1)), rest)
  else if b.toNat = 17 then
    match rest with
    | [] => .error .immPastEnd
    | literal :: rest' => .ok (.imm literal, rest')
  else .ok (.reserved b, rest)

/-- The literal words of an argument: one for IMM, else none (R63). -/
def Arg.literals : Arg → List Word
  | .imm literal => [literal]
  | .none => []
  | .reg _ => []
  | .reserved _ => []

/-- The length of an instruction in words: 1 and one for each IMM argument (R63). -/
def Instr.length (i : Instr) : Nat := 1 + i.arg1.literals.length + i.arg2.literals.length

/-- The instruction an opcode byte selects; none for 20 .. 255 (R66, R67). -/
def instrOf (op : Byte) (e : Ext) (a b : Arg) : Option Instr :=
  match op.toNat with
  | 0 => some (.nop e a b)
  | 1 => some (.endVm e a b)
  | 2 => some (.mov e a b)
  | 3 => some (.push e a b)
  | 4 => some (.pop e a b)
  | 5 => some (.add e a b)
  | 6 => some (.sub e a b)
  | 7 => some (.mul e a b)
  | 8 => some (.div e a b)
  | 9 => some (.and e a b)
  | 10 => some (.or e a b)
  | 11 => some (.xor e a b)
  | 12 => some (.shl e a b)
  | 13 => some (.shr e a b)
  | 14 => some (.cmp e a b)
  | 15 => some (.clf e a b)
  | 16 => some (.jmp e a b)
  | 17 => some (.inv e a b)
  | 18 => some (.ret e a b)
  | 19 => some (.sys e a b)
  | _ => none

/-- Decode the instruction at the head of a word sequence and give the words after it. The arguments come first, arg1
before arg2, and the opcode is looked at last: literals are consumed for every opcode (40_cycle.md R90, R94, R104). -/
def decode (ws : List Word) : Except DecodeError (Instr × List Word) :=
  match ws with
  | [] => .error .noWord
  | w :: rest =>
    match decodeArg (byteOf w 2) rest with
    | .error e => .error e
    | .ok (a, rest1) =>
      match decodeArg (byteOf w 3) rest1 with
      | .error e => .error e
      | .ok (b, rest2) =>
        match instrOf (byteOf w 0) (decodeExt (byteOf w 1)) a b with
        | none => .error (.unknownOpcode (byteOf w 0) (a.literals.length + b.literals.length))
        | some i => .ok (i, rest2)

/-- Decode the instruction at the head of a byte sequence, four bytes a word, little-endian (20_memory.md R46), and give
the bytes after it. -/
def decodeBytes (bs : List Byte) : Except DecodeError (Instr × List Byte) :=
  match decode (wordsOfBytes bs) with
  | .error e => .error e
  | .ok (i, _) => .ok (i, bs.drop (4 * i.length))

/-- The three words of the `nbits` bits of `w`, the first word the least significant, every bit above `nbits` being 0:
one instruction of the opcode table, with room for its literals. -/
def instructionWords (nbits w : Nat) : List Word :=
  let v : BitVec 96 := BitVec.ofNat 96 (w % 2 ^ nbits)
  [v.extractLsb' 0 32, v.extractLsb' 32 32, v.extractLsb' 64 32]

/-- The instruction the decoder reads from the bytecode of one opcode-table row's bits. -/
def decodeTableWord (nbits w : Nat) : Option Instr :=
  match decodeBytes (bytesOfWords (instructionWords nbits w)) with
  | .error _ => none
  | .ok (i, _) => some i

/-- The `ext` byte of a flag's suffix (30_encoding.md R65). -/
def Flag.code : Flag → Byte
  | .eq => 1
  | .ne => 2
  | .lt => 3
  | .le => 4
  | .gt => 5
  | .ge => 6
  | .nz => 7
  | .z => 8

/-- The `ext` byte of an extension (R65). -/
def Ext.code : Ext → Byte
  | .none => 0
  | .flag f => f.code
  | .reserved code => code

/-- The argument-type byte of an argument (R64). -/
def Arg.code : Arg → Byte
  | .none => 0
  | .reg r => BitVec.ofNat 8 (r.val + 1)
  | .imm _ => 17
  | .reserved code => code

/-- The opcode byte of an instruction (R66). -/
def Instr.opcode : Instr → Byte
  | .nop _ _ _ => 0
  | .endVm _ _ _ => 1
  | .mov _ _ _ => 2
  | .push _ _ _ => 3
  | .pop _ _ _ => 4
  | .add _ _ _ => 5
  | .sub _ _ _ => 6
  | .mul _ _ _ => 7
  | .div _ _ _ => 8
  | .and _ _ _ => 9
  | .or _ _ _ => 10
  | .xor _ _ _ => 11
  | .shl _ _ _ => 12
  | .shr _ _ _ => 13
  | .cmp _ _ _ => 14
  | .clf _ _ _ => 15
  | .jmp _ _ _ => 16
  | .inv _ _ _ => 17
  | .ret _ _ _ => 18
  | .sys _ _ _ => 19

/-- The words of an instruction: the packed word, then arg1's literal before arg2's (30_encoding.md R61 to R63). -/
def encode (i : Instr) : List Word :=
  pack i.opcode i.ext.code i.arg1.code i.arg2.code :: (i.arg1.literals ++ i.arg2.literals)

/-- The bytecode of an instruction (20_memory.md R46). -/
def encodeBytes (i : Instr) : List Byte := bytesOfWords (encode i)

end Sys2Proof
end

