-- ==== Sys2Proof/Config.lean ====
section
/-! DEFINITION. What the spec fixes for the hardware, the parameters it leaves to it, and the values it leaves free
(00_scope.md R6, 93_implementation_defined.md). -/

namespace Sys2Proof

/-- The 16 general registers R0 .. R15 of a task (10_state.md R15). -/
abbrev RegFile := Vector Word 16

/-- The host's context: opaque to the core, which only hands it to the syscall handler (R31). A list of words can code
any finite host data (log entry 6). -/
abbrev HostCtx := List Word

/-- The name of an installed syscall handler (R30, R131): which of the host's handlers it is (log entry 6). -/
abbrev Handler := Nat

/-- The name of a task, unique among live tasks (R38, D23). -/
abbrev Handle := Nat

/-- The two Boolean parameters that the spec leaves to the hardware (R6): a statement about every state holds for every
value of them. -/
structure Params where
  /-- Does step 7 run, on the unchanged destination, when the predicate is false (40_cycle.md R96). -/
  nzzOnSuppressed : Bool
  /-- Does POP set NZ or Z for each register it writes (42_stack.md R111). -/
  popSetsNzz : Bool
  deriving DecidableEq, Repr

namespace Config

/-- The defaults the spec states for the two parameters (R6, D9, D10). -/
def defaultParams : Params := { nzzOnSuppressed := false, popSetsNzz := false }

/-- CALL_STACK_SIZE where the metadata asks for 0 entries (10_state.md R36). -/
def defaultCallStackSize : Nat := 8

/-- DATA_STACK_SIZE where the metadata asks for 0 entries (R36). -/
def defaultDataStackSize : Nat := 32

/-- The largest CODE_SIZE (R6, D19). -/
def maxCodeSize : Nat := 2 ^ 31 - 1

/-- FREE VALUE (log entry 6). The host's answer to a syscall: what the handler makes of the host context and of the
current task's registers, given the number; the last argument counts the draws, so that a handler may answer the same
question differently at another time (47_syscall.md R131, R134). -/
opaque syscall : Handler → HostCtx → RegFile → Word → Nat → HostCtx × RegFile

/-- FREE VALUE (log entry 8). What entry `k` of a new data stack holds, for each draw (10_state.md R33). -/
opaque dataStackFill : (draw : Nat) → (k : Nat) → Word

/-- FREE VALUE (log entry 8). What entry `k` of a new call stack holds, for each draw (R35). -/
opaque callStackFill : (draw : Nat) → (k : Nat) → Word

/-- FREE VALUE (log entry 9). What is read at index `k` of a stack that has no entry `k`; no run reads it. -/
opaque strayEntry : (k : Nat) → Word

end Config

end Sys2Proof
end

