-- ==== Sys2Proof/Machine/State.lean ====
section
/-! DEFINITION. The state of the SVM core as plain data (10_state.md R14), the results an operation returns
(60_exceptions.md R135), the reasons a step can stop (R139), and the state after reset (70_reset_and_hazards.md R161). -/

namespace Sys2Proof.Machine

/-- The 16 result codes, in the document's order (60_exceptions.md R135). A result is a value the host receives, no trap. -/
inductive ResultCode where
  | ok | generic | nullArg | badAlloc | notRunning | codeOverflow | argNotReg | pushArgBadOrder | jmpOverflow
  | callStkOverflow | callStkUnderflow | stkOverflow | stkUnderflow | taskNotFound | taskSwitchBlocked
  | unknownInstruction
  deriving DecidableEq, Repr

/-- What a host operation returns: its code, and for a successful create the new task's handle (R158). -/
structure Reply where
  code : ResultCode
  handle : Option Handle
  deriving DecidableEq, Repr

/-- The spec's UNDEFINED reasons (60_exceptions.md R139). Each one stops the model where the document gives no result;
stopping is safe: no claim about a run that reaches it can be proved (00_scope.md R11, log entry 4). -/
inductive Fault where
  /-- A cycle with RUNNING true and no current task (40_cycle.md R87). Raised by the cycle and by every meaning that
  needs the current task. Safe. -/
  | noCurrentTask
  /-- An IMM argument whose literal would lie at or past CODE_SIZE (R91). Raised by the cycle. Safe. -/
  | immPastEnd
  /-- A value slot that the instruction needs holds NONE or an invalid type, predicate true (R99). Raised by MOV,
  ADD .. SHR, CMP, JMP, INV, SYS. Safe. -/
  | noneOperand
  /-- An operand shape the instruction does not accept, predicate false (R98). Raised by MOV, PUSH, POP, ADD .. SHR,
  CMP, JMP, INV, SYS. Safe. -/
  | shapeUnderFalsePredicate
  /-- A PUSH or POP form not in its table, predicate true (42_stack.md R108, R109). Safe. -/
  | badStackForm
  /-- A POP range with Rlo at or above Rhi, predicate true (R109). Safe. -/
  | popBadOrder
  /-- DIV with divisor 0, predicate true (43_arith.md R117). Safe. -/
  | divByZero
  /-- DIV of -2^31 by -1, predicate true (R117). Safe. -/
  | divOverflow
  /-- JMP or INV to a negative target, predicate true (46_control.md R126). Safe. -/
  | negativeTarget
  /-- SYS with the predicate true and no handler installed (47_syscall.md R131). Safe. -/
  | noSyscallHandler
  /-- A host operation outside its precondition (60_exceptions.md R159). Raised by load, create, remove, unload. Safe. -/
  | hostProtocol
  deriving DecidableEq, Repr

/-- Inputs and instructions the model gives no step. -/
inductive Refusal where
  /-- An instruction that has no meaning in the model; no arm of `exec` answers with it. Safe. -/
  | notModelled (mnemonic : String)
  /-- A load of an image of more than 2^31 - 1 words, which the hardware's CODE_SIZE rules out (R6, D19). Raised by load.
  Safe (log entry 12). -/
  | imageTooLarge
  /-- A create whose new task would bear the handle of a live task: no such answer of the allocator exists (R38, D23).
  Raised by create. Safe (log entry 10). -/
  | handleInUse
  deriving DecidableEq, Repr

/-- The eight independent, sticky flags of a task (10_state.md R25). -/
structure Flags where
  eq : Bool
  ne : Bool
  lt : Bool
  le : Bool
  gt : Bool
  ge : Bool
  nz : Bool
  z : Bool
  deriving DecidableEq, Repr

/-- A task: an independent execution context (R14, R17). DATA_STACK_SIZE and CALL_STACK_SIZE are the lengths of its two
stack buffers, which never change (R33, R35, R36). -/
structure Task where
  /-- The name the host knows the task by (R38, D23). -/
  handle : Handle
  /-- R0 .. R15 (R15). -/
  regs : RegFile
  /-- F.EQ .. F.Z (R25). -/
  flags : Flags
  /-- The program counter, a word index (R20). -/
  pc : Word
  /-- How many entries the call stack holds (R34). -/
  rpc : Nat
  /-- How many entries the data stack holds (R32). -/
  sp : Nat
  /-- The data stack's buffer, entry 0 first (R33). -/
  ds : List Word
  /-- The call stack's buffer, entry 0 first (R35). -/
  cs : List Word
  deriving DecidableEq, Repr

/-- The metadata of a code image; zero asks for the default size (R36). -/
structure ImageMeta where
  initialCallStackSize : Nat
  initialDataStackSize : Nat
  deriving DecidableEq, Repr

/-- Bytes by address, in one canonical form (`Memory.wf`): addresses strictly rising, and no entry equal to what an
unlisted address reads as (`Memory.unlisted`). -/
abbrev Memory := List Host.Cell

/-- A loaded code image (R37): CODE_SIZE words, held as the bytes of the bytecode, word `i` at byte addresses `4 i` to
`4 i + 3` (20_memory.md R46, log entry 11). -/
structure CodeImage where
  /-- CODE_SIZE, in words. -/
  size : Nat
  bytes : Memory
  metadata : ImageMeta
  deriving DecidableEq, Repr

/-- The operations of the block's interface on a VM (60_exceptions.md R158); init, which makes the VM, is `State.init`
(log entry 16). `alloc` is the host allocator's answer: `none`
refuses the memory, `some h` gives it, the new task's handle being `h` (D23, D26, log entry 10). -/
inductive HostCall where
  | load (words : List Word) (metadata : ImageMeta) (seeds : Option RegFile) (alloc : Option Handle)
  | cycle
  | switchTask
  | block (b : Bool)
  | create (pc : Word) (seeds : Option RegFile) (alloc : Option Handle)
  | remove (h : Handle)
  | unload
  deriving DecidableEq, Repr

/-- The VM record (10_state.md R14), with the two parameters of the hardware (00_scope.md R6), the value the last
operation returned, and the model's own `calls` and `draws`. -/
structure State where
  /-- RUNNING (R30). -/
  running : Bool
  /-- TSB, the task-switch-block flag (R30). -/
  tsb : Bool
  /-- CODE (R37); absent until load. -/
  code : Option CodeImage
  /-- RING, the tasks in ring order, head first (R38). -/
  ring : List Task
  /-- CUR, the handle of the current task, or null (R30, R39). -/
  cur : Option Handle
  /-- HOSTCTX (R31). -/
  hostCtx : HostCtx
  /-- HANDLER (R30, R131). -/
  handler : Option Handler
  /-- FAULT, the spec's model-only record of an UNDEFINED reason (R41). -/
  fault : Option Fault
  /-- NZZ_ON_SUPPRESSED and POP_SETS_NZZ (00_scope.md R6, log entry 5). -/
  params : Params
  /-- What the last operation returned to the host (40_cycle.md R84, log entry 3). -/
  reply : Reply
  /-- The model's own: the operations the host has issued and the machine has not yet served (log entry 2). -/
  calls : List HostCall
  /-- The model's own: how many free values have been drawn (log entry 6). -/
  draws : Nat
  deriving DecidableEq, Repr

/-- VM init: the VM that the host constructs with its context and, if it has one, its syscall handler
(70_reset_and_hazards.md R161): no image, no task, not running. -/
def State.init (hostCtx : HostCtx) (handler : Option Handler) (params : Params) : State where
  running := false
  tsb := false
  code := none
  ring := []
  cur := none
  hostCtx := hostCtx
  handler := handler
  fault := none
  params := params
  reply := { code := .ok, handle := none }
  calls := []
  draws := 0

/-- The machine right after reset, which is VM init (R161). The host context and the handler are the host's to supply;
here none is (log entry 7), and the parameters are at the spec's defaults (log entry 5). -/
def State.reset : State := State.init [] none Config.defaultParams

end Sys2Proof.Machine
end

