-- ==== Sys2Proof/Machine/Ops.lean ====
section
/-! DEFINITION. The named operations over memory, registers, stacks and tasks, and the ways an operation ends: OK, an
error result (the hardware's whole "exception": it saves nothing and goes nowhere, 60_exceptions.md R136, R143, R144), or
an UNDEFINED reason. -/

namespace Sys2Proof.Machine

/-! ## Signed and unsigned readings (00_scope.md R9) -/

/-- `s32`: a word read as a signed number. -/
def s32 (w : Word) : Int := w.toInt

/-- `u32`: a word read as an unsigned number. -/
def u32 (w : Word) : Nat := w.toNat

/-- `wrap32`: the word congruent to an integer modulo 2^32. -/
def wrap32 (n : Int) : Word := BitVec.ofInt 32 n

/-! ## Byte memory -/

/-- What an address that a memory does not list reads as. Every byte of a loaded image is given by the host, so this is
how a zero byte of the image is written down, no value chosen for it (log entry 11). -/
def Memory.unlisted : Byte := 0

/-- The canonical form: addresses strictly rising, and no entry equal to what an unlisted address reads as. -/
abbrev Memory.wf (m : Memory) : Prop :=
  m.Pairwise (fun x y => x.1 < y.1) ∧ ∀ c ∈ m, c.2 ≠ Memory.unlisted

/-- The byte at an address. -/
def Memory.read : Memory → Nat → Byte
  | [], _ => Memory.unlisted
  | (a, b) :: m, k => if a = k then b else Memory.read m k

/-- A memory with one byte put in front, left out where an unlisted address reads as it. -/
def Memory.cons (a : Nat) (b : Byte) (m : Memory) : Memory :=
  if b = Memory.unlisted then m else (a, b) :: m

/-- Store one byte, keeping the canonical form. No instruction does this (20_memory.md R52): it is for the host that
builds an image. -/
def Memory.write : Memory → Nat → Byte → Memory
  | [], k, v => Memory.cons k v []
  | (a, b) :: m, k, v =>
    if k < a then Memory.cons k v ((a, b) :: m)
    else if k = a then Memory.cons k v m
    else (a, b) :: Memory.write m k v

/-- Store a sequence of bytes at rising addresses. -/
def Memory.writeBytes : Memory → Nat → List Byte → Memory
  | m, _, [] => m
  | m, k, v :: vs => Memory.writeBytes (Memory.write m k v) (k + 1) vs

/-- The memory that holds a sequence of bytes from an address on, and nothing else. -/
def Memory.ofBytes : Nat → List Byte → Memory
  | _, [] => []
  | k, v :: vs => Memory.cons k v (Memory.ofBytes (k + 1) vs)

/-! ## The code image (10_state.md R37, 20_memory.md R43 to R46) -/

/-- The image of a sequence of words (R46, 70_reset_and_hazards.md R163). -/
def CodeImage.ofWords (words : List Word) (metadata : ImageMeta) : CodeImage where
  size := words.length
  bytes := Memory.ofBytes 0 (bytesOfWords words)
  metadata := metadata

/-- An image is as the hardware allows it: canonical bytes, all within it, and CODE_SIZE at most 2^31 - 1 (R6). -/
abbrev CodeImage.wf (img : CodeImage) : Prop :=
  Memory.wf img.bytes ∧ (∀ c ∈ img.bytes, c.1 < 4 * img.size) ∧ img.size ≤ Config.maxCodeSize

/-- The byte of the image at a byte address of the bytecode; there is none past the last word (R46, R53). -/
def CodeImage.readByte (img : CodeImage) (a : Nat) : Option Byte :=
  if a < 4 * img.size then some (Memory.read img.bytes a) else none

/-- CodeRead: the word at a word index, for 0 ≤ a < CODE_SIZE (R45), byte 0 the least significant (R46). -/
def CodeImage.codeRead (img : CodeImage) (a : Nat) : Option Word :=
  if a < img.size then
    some (joinBytes (Memory.read img.bytes (4 * a)) (Memory.read img.bytes (4 * a + 1))
      (Memory.read img.bytes (4 * a + 2)) (Memory.read img.bytes (4 * a + 3)))
  else none

/-- At most `n` words of the image from an index on: what an instruction there can consist of. -/
def CodeImage.wordsFrom (img : CodeImage) : (n : Nat) → (a : Nat) → List Word
  | 0, _ => []
  | n + 1, a =>
    match img.codeRead a with
    | none => []
    | some w => w :: CodeImage.wordsFrom img n (a + 1)

/-- CALL_STACK_SIZE of the tasks of an image (10_state.md R36). -/
def ImageMeta.callStackSize (m : ImageMeta) : Nat :=
  if m.initialCallStackSize = 0 then Config.defaultCallStackSize else m.initialCallStackSize

/-- DATA_STACK_SIZE of the tasks of an image (R36). -/
def ImageMeta.dataStackSize (m : ImageMeta) : Nat :=
  if m.initialDataStackSize = 0 then Config.defaultDataStackSize else m.initialDataStackSize

/-- CODE_SIZE of the loaded image. Without an image there is no word to execute (log entry 14). -/
def State.codeSize (s : State) : Nat :=
  match s.code with
  | none => 0
  | some img => img.size

/-- The byte of the loaded image at a byte address (R46). -/
def State.readByte (s : State) (a : Nat) : Option Byte :=
  match s.code with
  | none => none
  | some img => img.readByte a

/-- The words of the loaded image from an index on, at most three: the greatest length of an instruction
(30_encoding.md R63). -/
def State.fetchWords (s : State) (a : Nat) : List Word :=
  match s.code with
  | none => []
  | some img => img.wordsFrom 3 a

/-! ## Tasks and the ring (10_state.md R38, R39) -/

/-- The task of the ring with a handle. -/
def State.task (s : State) (h : Handle) : Option Task := s.ring.find? (fun t => t.handle == h)

/-- The current task: the one CUR names (R14, R39; log entry 13). -/
def State.currentTask (s : State) : Option Task :=
  match s.cur with
  | none => none
  | some h => s.task h

/-- The ring with the task of a handle replaced by another record of that task. -/
def putInRing (t : Task) (ring : List Task) : List Task :=
  ring.map (fun u => if u.handle = t.handle then t else u)

/-- Write back the record of a task. No other task changes (R16, R17). -/
def State.putTask (s : State) (t : Task) : State := { s with ring := putInRing t s.ring }

/-! ## Registers (10_state.md R15) -/

/-- `x[i]`: read a register of a task. No register is special (R15). -/
def Task.readReg (t : Task) (r : RegNum) : Word := t.regs[r]

/-- `x[i] <- v`: write a register of a task. -/
def Task.writeReg (t : Task) (r : RegNum) (v : Word) : Task := { t with regs := t.regs.set r v }

/-! ## Stacks (10_state.md R32 to R35) -/

/-- `DS[k]` (log entry 9 for an index outside the buffer, which no run reads). -/
def Task.dsRead (t : Task) (k : Nat) : Word := t.ds.getD k (Config.strayEntry k)

/-- `CS[k]`. -/
def Task.csRead (t : Task) (k : Nat) : Word := t.cs.getD k (Config.strayEntry k)

/-- One push on the data stack: write `DS[sp]`, then increment sp (R32). -/
def Task.dsPush (t : Task) (v : Word) : Task := { t with ds := t.ds.set t.sp v, sp := t.sp + 1 }

/-- Push a sequence of values in order (42_stack.md R108). -/
def Task.dsPushAll : Task → List Word → Task
  | t, [] => t
  | t, v :: vs => Task.dsPushAll (t.dsPush v) vs

/-- One pop off the data stack: decrement sp, then read `DS[sp]` (R32, 42_stack.md R110). The entry stays in the
buffer. -/
def Task.dsPop (t : Task) : Word × Task := (t.dsRead (t.sp - 1), { t with sp := t.sp - 1 })

/-- Push a return address: write `CS[rpc]`, then increment rpc (R34). -/
def Task.csPush (t : Task) (v : Word) : Task := { t with cs := t.cs.set t.rpc v, rpc := t.rpc + 1 }

/-- Pop a return address: decrement rpc, then read `CS[rpc]` (R34). The entry stays in the buffer. -/
def Task.csPop (t : Task) : Word × Task := (t.csRead (t.rpc - 1), { t with rpc := t.rpc - 1 })

/-! ## How an operation ends -/

/-- The number of a result code: its place in the document's list (60_exceptions.md R135, D1). -/
def ResultCode.number : ResultCode → Nat
  | .ok => 0
  | .generic => 1
  | .nullArg => 2
  | .badAlloc => 3
  | .notRunning => 4
  | .codeOverflow => 5
  | .argNotReg => 6
  | .pushArgBadOrder => 7
  | .jmpOverflow => 8
  | .callStkOverflow => 9
  | .callStkUnderflow => 10
  | .stkOverflow => 11
  | .stkUnderflow => 12
  | .taskNotFound => 13
  | .taskSwitchBlocked => 14
  | .unknownInstruction => 15

/-- Return a result code to the host (40_cycle.md R84, R97). A result records nothing but its code (R136). -/
def State.answer (s : State) (code : ResultCode) : State := { s with reply := { code := code, handle := none } }

/-- `return OK` with the current task's new record. -/
def finish (s : State) (t : Task) : Host.Outcome State Fault Refusal := .next ((s.putTask t).answer .ok)

/-- `raise E`: the cycle ends now and returns an error code; what was written before it stays written, RUNNING is
unchanged, nothing is saved and nothing is entered (00_scope.md R10, 40_cycle.md R101, 60_exceptions.md R138, R143).
This is all the hardware has of taking an exception, and cycling again all it has of returning from one (R144). -/
def raise (s : State) (code : ResultCode) : Host.Outcome State Fault Refusal := .next (s.answer code)

/-- An instruction body run on the current task; without one it is UNDEFINED (40_cycle.md R87). -/
def onCurrent (s : State) (body : Task → Host.Outcome State Fault Refusal) : Host.Outcome State Fault Refusal :=
  match s.currentTask with
  | none => .fault .noCurrentTask
  | some t => body t

/-- The spec's record of an UNDEFINED outcome: FAULT holds the reason from then on (00_scope.md R11, 10_state.md R41). A
refused input leaves the state as it was. -/
def State.latch (s : State) (o : Host.Outcome State Fault Refusal) : State :=
  match o with
  | .next s' => s'
  | .fault r => { s with fault := some r }
  | .refused _ => s

/-! ## Branches (46_control.md R126) -/

/-- Branch the task `t` to a target: a negative one is UNDEFINED, one at or past CODE_SIZE is JMP_OVERFLOW and leaves
what `t` already holds written (R126 to R128). -/
def branchTo (s : State) (t : Task) (target : Word) : Host.Outcome State Fault Refusal :=
  if s32 target < 0 then .fault .negativeTarget
  else if (s.codeSize : Int) ≤ s32 target then raise (s.putTask t) .jmpOverflow
  else finish s { t with pc := target }

end Sys2Proof.Machine
end

