-- ==== Sys2Proof/Machine/Flags.lean ====
section
/-! DEFINITION. Every flag computation of the spec: reading a predicate, the comparison flags, NZ/Z, and clearing
(10_state.md R25 to R28, 40_cycle.md R92, R95, 45_compare_flags.md R124, R125). -/

namespace Sys2Proof.Machine

/-- All eight flags false: a new task's flags (10_state.md R28), and what CLF with no suffix leaves (R125). -/
def Flags.allClear : Flags where
  eq := false
  ne := false
  lt := false
  le := false
  gt := false
  ge := false
  nz := false
  z := false

/-- Read a flag. -/
def Flags.get (f : Flags) : Flag → Bool
  | .eq => f.eq
  | .ne => f.ne
  | .lt => f.lt
  | .le => f.le
  | .gt => f.gt
  | .ge => f.ge
  | .nz => f.nz
  | .z => f.z

/-- Clear one flag. -/
def Flags.clear (f : Flags) : Flag → Flags
  | .eq => { f with eq := false }
  | .ne => { f with ne := false }
  | .lt => { f with lt := false }
  | .le => { f with le := false }
  | .gt => { f with gt := false }
  | .ge => { f with ge := false }
  | .nz => { f with nz := false }
  | .z => { f with z := false }

/-- `P`: the predicate an extension selects; NONE and the invalid codes are true (40_cycle.md R92). -/
def Flags.holds (f : Flags) : Ext → Bool
  | .none => true
  | .flag g => f.get g
  | .reserved _ => true

/-- SetNZZ: set NZ for a value that is not 0, Z for 0; never clear either (40_cycle.md R95). -/
def Flags.setNZZ (f : Flags) (v : Word) : Flags :=
  { f with nz := f.nz || (v != 0), z := f.z || (v == 0) }

/-- The flags after CMP of `a` with `b`: each relation that holds sets its flag, none is cleared; the comparison is
signed (45_compare_flags.md R124). -/
def Flags.compare (f : Flags) (a b : Word) : Flags :=
  { f with
    eq := f.eq || decide (s32 a = s32 b)
    ne := f.ne || decide (s32 a ≠ s32 b)
    lt := f.lt || decide (s32 a < s32 b)
    le := f.le || decide (s32 a ≤ s32 b)
    gt := f.gt || decide (s32 b < s32 a)
    ge := f.ge || decide (s32 b ≤ s32 a) }

/-- The flags after CLF: the extension selects the flag to clear; NONE and the invalid codes select all eight
(R125). -/
def Flags.clearSelected (f : Flags) : Ext → Flags
  | .none => Flags.allClear
  | .flag g => f.clear g
  | .reserved _ => Flags.allClear

/-- SetNZZ on a task's flags. -/
def Task.setNZZ (t : Task) (v : Word) : Task := { t with flags := t.flags.setNZZ v }

end Sys2Proof.Machine
end

