-- ==== Sys2Proof/Machine/Operands.lean ====
section
/-! DEFINITION. Every operand form: values and register numbers of arguments, register ranges, the PUSH and POP shapes,
and the template of the register-destination instructions (30_encoding.md R70, R71; 40_cycle.md R98, R99, R103;
42_stack.md R108, R109). -/

namespace Sys2Proof.Machine

/-- RegIndex: the register number of an argument; it fails for NONE, IMM and the invalid types (30_encoding.md R70). -/
def argRegIndex : Arg → Option RegNum
  | .reg r => some r
  | .none => none
  | .imm _ => none
  | .reserved _ => none

/-- The value of an argument: the register's, the literal, or none (R71, 40_cycle.md R90). An instruction's body runs
before it has written anything but pc, so the registers it reads here hold what they held at operand fetch. -/
def argValue (t : Task) : Arg → Option Word
  | .reg r => some (t.readReg r)
  | .imm literal => some literal
  | .none => none
  | .reserved _ => none

/-- The "none" of the PUSH and POP tables: type 0 or 18 .. 255 (42_stack.md). -/
def argIsNone : Arg → Bool
  | .none => true
  | .reserved _ => true
  | .reg _ => false
  | .imm _ => false

/-- An ill-formed shape: with the predicate true, what the instruction's rule names; with it false,
UNDEFINED(SHAPE_UNDER_FALSE_PREDICATE) (40_cycle.md R98). -/
def illShaped (p : Bool) (named : Host.Outcome State Fault Refusal) : Host.Outcome State Fault Refusal :=
  if p then named else .fault .shapeUnderFalsePredicate

/-- The 16 register numbers, ascending. -/
def allRegs : List RegNum := [0, 1, 2, 3, 4, 5, 6, 7, 8, 9, 10, 11, 12, 13, 14, 15]

/-- The registers Rlo .. Rhi inclusive, ascending. -/
def regRange (lo hi : RegNum) : List RegNum := allRegs.filter (fun r => decide (lo ≤ r) && decide (r ≤ hi))

/-- What a pair of PUSH arguments asks for (42_stack.md R108). -/
inductive PushShape where
  | values (vs : List Word)
  | badOrder
  | badForm
  deriving DecidableEq, Repr

/-- The shape table of PUSH (R108). -/
def pushShape (t : Task) : Arg → Arg → PushShape
  | .imm literal, b => if argIsNone b then .values [literal] else .badForm
  | .reg d, .none => .values [t.readReg d]
  | .reg d, .reserved _ => .values [t.readReg d]
  | .reg lo, .reg hi => if hi ≤ lo then .badOrder else .values ((regRange lo hi).map t.readReg)
  | .reg _, .imm _ => .badForm
  | .none, _ => .badForm
  | .reserved _, _ => .badForm

/-- What a pair of POP arguments asks for (R109). -/
inductive PopShape where
  | registers (rs : List RegNum)
  | badOrder
  | badForm
  deriving DecidableEq, Repr

/-- The shape table of POP: a range is popped highest first (R109). -/
def popShape : Arg → Arg → PopShape
  | .reg d, .none => .registers [d]
  | .reg d, .reserved _ => .registers [d]
  | .reg lo, .reg hi => if hi ≤ lo then .badOrder else .registers (regRange lo hi).reverse
  | .reg _, .imm _ => .badForm
  | .imm _, _ => .badForm
  | .none, _ => .badForm
  | .reserved _, _ => .badForm

/-- Pop into a sequence of registers in order; each written register sets NZ or Z where POP_SETS_NZZ says so (R109,
R111). -/
def popInto (setsNzz : Bool) : Task → List RegNum → Task
  | t, [] => t
  | t, r :: rs =>
    let v := t.dsPop.1
    let t1 := t.dsPop.2.writeReg r v
    popInto setsNzz (if setsNzz then t1.setNZZ v else t1) rs

/-- Exec_regdest: the template of MOV, ADD, SUB, MUL, DIV, AND, OR, XOR, SHL and SHR, with `f` the operation on the
destination's old value and the source's (40_cycle.md R103). -/
def regDest (f : Word → Word → Except Fault Word) (e : Ext) (a b : Arg) (s : State) : Host.Outcome State Fault Refusal :=
  onCurrent s fun t =>
    let p := t.flags.holds e
    match argRegIndex a with
    | none => illShaped p (raise s .argNotReg)
    | some d =>
      match argValue t b with
      | none => illShaped p (.fault .noneOperand)
      | some v =>
        if p then
          match f (t.readReg d) v with
          | .error r => .fault r
          | .ok r => finish s ((t.writeReg d r).setNZZ r)
        else finish s (if s.params.nzzOnSuppressed then t.setNZZ (t.readReg d) else t)

/-- An instruction that needs the value of arg1 and does something with it when the predicate holds: JMP, INV and SYS
(46_control.md R127, R128; 47_syscall.md R131). -/
def withValue (e : Ext) (a : Arg) (s : State) (effect : Task → Word → Host.Outcome State Fault Refusal) :
    Host.Outcome State Fault Refusal :=
  onCurrent s fun t =>
    let p := t.flags.holds e
    match argValue t a with
    | none => illShaped p (.fault .noneOperand)
    | some v => if p then effect t v else finish s t

end Sys2Proof.Machine
end

