-- ==== Sys2Proof/Machine/Arith.lean ====
section
/-! DEFINITION. ADD, SUB, MUL, DIV (43_arith.md): the exact signed result, narrowed to 32 bits at the end (R113, D2). -/

namespace Sys2Proof.Machine

/-- ADD's operation (R114). -/
def addWords (old src : Word) : Except Fault Word := .ok (wrap32 (s32 old + s32 src))

/-- SUB's operation (R115). -/
def subWords (old src : Word) : Except Fault Word := .ok (wrap32 (s32 old - s32 src))

/-- MUL's operation: the low 32 bits (R116). -/
def mulWords (old src : Word) : Except Fault Word := .ok (wrap32 (s32 old * s32 src))

/-- DIV's operation: the quotient truncated toward zero; a divisor of 0 and -2^31 by -1 are UNDEFINED (R117, D3 to
D5). -/
def divWords (old src : Word) : Except Fault Word :=
  if s32 src = 0 then .error .divByZero
  else if s32 old = -(2 ^ 31) ∧ s32 src = -1 then .error .divOverflow
  else .ok (wrap32 (Int.tdiv (s32 old) (s32 src)))

/-- ADD (R114). -/
def execAdd (e : Ext) (a b : Arg) (s : State) : Host.Outcome State Fault Refusal := regDest addWords e a b s

/-- SUB (R115). -/
def execSub (e : Ext) (a b : Arg) (s : State) : Host.Outcome State Fault Refusal := regDest subWords e a b s

/-- MUL (R116). -/
def execMul (e : Ext) (a b : Arg) (s : State) : Host.Outcome State Fault Refusal := regDest mulWords e a b s

/-- DIV (R117). -/
def execDiv (e : Ext) (a b : Arg) (s : State) : Host.Outcome State Fault Refusal := regDest divWords e a b s

end Sys2Proof.Machine
end

