-- ==== Sys2Proof/Machine/CompareFlags.lean ====
section
/-! DEFINITION. CMP and CLF (45_compare_flags.md). -/

namespace Sys2Proof.Machine

/-- CMP: set the flag of every relation that holds between the two values, clear none; NZ and Z are not written
(R124). -/
def execCmp (e : Ext) (a b : Arg) (s : State) : Host.Outcome State Fault Refusal :=
  onCurrent s fun t =>
    let p := t.flags.holds e
    match argValue t a, argValue t b with
    | some v, some w => finish s (if p then { t with flags := t.flags.compare v w } else t)
    | none, _ => illShaped p (.fault .noneOperand)
    | some _, none => illShaped p (.fault .noneOperand)

/-- CLF: clear the flag the extension selects, or all eight; never suppressed (R125). -/
def execClf (e : Ext) (_a _b : Arg) (s : State) : Host.Outcome State Fault Refusal :=
  onCurrent s fun t => finish s { t with flags := t.flags.clearSelected e }

end Sys2Proof.Machine
end

