-- ==== Sys2Proof/Machine/Control.lean ====
section
/-! DEFINITION. JMP, INV, RET (46_control.md). pc is already the index of the next instruction when a body runs
(10_state.md R21). -/

namespace Sys2Proof.Machine

/-- JMP: branch if the predicate holds (R127). -/
def execJmp (e : Ext) (a _b : Arg) (s : State) : Host.Outcome State Fault Refusal :=
  withValue e a s fun t target => branchTo s t target

/-- INV: if the predicate holds, push the next instruction's index and branch; an error of the branch leaves the entry
pushed (R128, D35). -/
def execInv (e : Ext) (a _b : Arg) (s : State) : Host.Outcome State Fault Refusal :=
  withValue e a s fun t target =>
    if t.rpc = t.cs.length then raise s .callStkOverflow
    else branchTo s (t.csPush t.pc) target

/-- RET: unconditional; pc gets the popped entry, which is not checked against CODE_SIZE (R129). -/
def execRet (_e : Ext) (_a _b : Arg) (s : State) : Host.Outcome State Fault Refusal :=
  onCurrent s fun t =>
    if t.rpc = 0 then raise s .callStkUnderflow
    else finish s { t.csPop.2 with pc := t.csPop.1 }

end Sys2Proof.Machine
end

