-- ==== Sys2Proof/Machine/LogicShift.lean ====
section
/-! DEFINITION. AND, OR, XOR, SHL, SHR (44_logic_shift.md). -/

namespace Sys2Proof.Machine

/-- The shift count: the low five bits of the source (R118, D6). -/
def shiftCount (src : Word) : Nat := (src.extractLsb' 0 5).toNat

/-- AND's operation (R119). -/
def andWords (old src : Word) : Except Fault Word := .ok (old &&& src)

/-- OR's operation (R120). -/
def orWords (old src : Word) : Except Fault Word := .ok (old ||| src)

/-- XOR's operation (R121). -/
def xorWords (old src : Word) : Except Fault Word := .ok (old ^^^ src)

/-- SHL's operation: zeros come in at the low end, bits past bit 31 are dropped (R122, D7). -/
def shlWords (old src : Word) : Except Fault Word := .ok (old <<< shiftCount src)

/-- SHR's operation: arithmetic, floor of the signed value by a power of two (R123, D7). -/
def shrWords (old src : Word) : Except Fault Word := .ok (wrap32 (Int.fdiv (s32 old) (2 ^ shiftCount src)))

/-- AND (R119). -/
def execAnd (e : Ext) (a b : Arg) (s : State) : Host.Outcome State Fault Refusal := regDest andWords e a b s

/-- OR (R120). -/
def execOr (e : Ext) (a b : Arg) (s : State) : Host.Outcome State Fault Refusal := regDest orWords e a b s

/-- XOR (R121). -/
def execXor (e : Ext) (a b : Arg) (s : State) : Host.Outcome State Fault Refusal := regDest xorWords e a b s

/-- SHL (R122). -/
def execShl (e : Ext) (a b : Arg) (s : State) : Host.Outcome State Fault Refusal := regDest shlWords e a b s

/-- SHR (R123). -/
def execShr (e : Ext) (a b : Arg) (s : State) : Host.Outcome State Fault Refusal := regDest shrWords e a b s

end Sys2Proof.Machine
end

