-- ==== Sys2Proof/Machine/MoveMisc.lean ====
section
/-! DEFINITION. NOP, END, MOV (41_move_misc.md). Every body runs with pc already past the instruction's words. The unused
arguments were fetched before; their values are ignored (30_encoding.md R69). -/

namespace Sys2Proof.Machine

/-- NOP: nothing (R105). -/
def execNop (_e : Ext) (_a _b : Arg) (s : State) : Host.Outcome State Fault Refusal := .next (s.answer .ok)

/-- END: clear RUNNING, which is the VM's, if the predicate holds; OK either way (R106). -/
def execEnd (e : Ext) (_a _b : Arg) (s : State) : Host.Outcome State Fault Refusal :=
  onCurrent s fun t =>
    .next ({ s with running := if t.flags.holds e then false else s.running }.answer .ok)

/-- MOV: Rd gets the source (R107). -/
def execMov (e : Ext) (a b : Arg) (s : State) : Host.Outcome State Fault Refusal :=
  regDest (fun _old src => .ok src) e a b s

end Sys2Proof.Machine
end

