-- ==== Sys2Proof/Machine/Stack.lean ====
section
/-! DEFINITION. PUSH and POP (42_stack.md). Room is checked once for the whole range, before anything is written
(R108, R109, D16). -/

namespace Sys2Proof.Machine

/-- PUSH: a literal, a register, or an ascending range of registers (R108). -/
def execPush (e : Ext) (a b : Arg) (s : State) : Host.Outcome State Fault Refusal :=
  onCurrent s fun t =>
    let p := t.flags.holds e
    match pushShape t a b with
    | .badOrder => illShaped p (raise s .pushArgBadOrder)
    | .badForm => illShaped p (.fault .badStackForm)
    | .values vs =>
      if p then
        if t.ds.length < t.sp + vs.length then raise s .stkOverflow else finish s (t.dsPushAll vs)
      else finish s t

/-- POP: one register, or a range of registers highest first (R109 to R111). -/
def execPop (e : Ext) (a b : Arg) (s : State) : Host.Outcome State Fault Refusal :=
  onCurrent s fun t =>
    let p := t.flags.holds e
    match popShape a b with
    | .badOrder => illShaped p (.fault .popBadOrder)
    | .badForm => illShaped p (.fault .badStackForm)
    | .registers rs =>
      if p then
        if t.sp < rs.length then raise s .stkUnderflow else finish s (popInto s.params.popSetsNzz t rs)
      else finish s t

end Sys2Proof.Machine
end

