-- ==== Sys2Proof/Machine/Syscall.lean ====
section
/-! DEFINITION. SYS (47_syscall.md). -/

namespace Sys2Proof.Machine

/-- SYS: if the predicate holds, the installed handler gets the host context, the 16 registers and the number, and its
answer, which the model leaves free, replaces the host context and the registers (R131, R132, R134). -/
def execSys (e : Ext) (a _b : Arg) (s : State) : Host.Outcome State Fault Refusal :=
  withValue e a s fun t number =>
    match s.handler with
    | none => .fault .noSyscallHandler
    | some h =>
      let answer := Config.syscall h s.hostCtx t.regs number s.draws
      finish { s with hostCtx := answer.1, draws := s.draws + 1 } { t with regs := answer.2 }

end Sys2Proof.Machine
end

