-- ==== Sys2Proof/Machine/Dispatch.lean ====
section
/-! DEFINITION. Step 6 of the cycle: the meaning of each instruction (40_cycle.md R94, R103), run with pc already past
the instruction's words. One arm per constructor. -/

namespace Sys2Proof.Machine

def exec (i : Instr) (s : State) : Host.Outcome State Fault Refusal :=
  match i with
  | .nop e a b => Sys2Proof.Machine.execNop e a b s
  | .endVm e a b => Sys2Proof.Machine.execEnd e a b s
  | .mov e a b => Sys2Proof.Machine.execMov e a b s
  | .push e a b => Sys2Proof.Machine.execPush e a b s
  | .pop e a b => Sys2Proof.Machine.execPop e a b s
  | .add e a b => Sys2Proof.Machine.execAdd e a b s
  | .sub e a b => Sys2Proof.Machine.execSub e a b s
  | .mul e a b => Sys2Proof.Machine.execMul e a b s
  | .div e a b => Sys2Proof.Machine.execDiv e a b s
  | .and e a b => Sys2Proof.Machine.execAnd e a b s
  | .or e a b => Sys2Proof.Machine.execOr e a b s
  | .xor e a b => Sys2Proof.Machine.execXor e a b s
  | .shl e a b => Sys2Proof.Machine.execShl e a b s
  | .shr e a b => Sys2Proof.Machine.execShr e a b s
  | .cmp e a b => Sys2Proof.Machine.execCmp e a b s
  | .clf e a b => Sys2Proof.Machine.execClf e a b s
  | .jmp e a b => Sys2Proof.Machine.execJmp e a b s
  | .inv e a b => Sys2Proof.Machine.execInv e a b s
  | .ret e a b => Sys2Proof.Machine.execRet e a b s
  | .sys e a b => Sys2Proof.Machine.execSys e a b s

end Sys2Proof.Machine
end

