-- ==== Sys2Proof/Machine/Cycle.lean ====
section
/-! DEFINITION. The execution cycle (40_cycle.md R84 to R104): one instruction of the current task, fetched, decoded and
executed. -/

namespace Sys2Proof.Machine

/-- Steps 3 and 4 move pc past the instruction word and its literals (R89, R90). -/
def Task.advance (t : Task) (words : Nat) : Task := { t with pc := t.pc + BitVec.ofNat 32 words }

/-- Fetch and decode the instruction at an index of the code image (R89, R90). -/
def State.fetch (s : State) (a : Nat) : Except DecodeError Instr :=
  match decode (s.fetchWords a) with
  | .error e => .error e
  | .ok (i, _) => .ok i

/-- pc at or past CODE_SIZE: clear RUNNING, which halts every task, and nothing else (R88). -/
def codeOverflow (s : State) : Host.Outcome State Fault Refusal :=
  raise { s with running := false } .codeOverflow

/-- One cycle on the current task, RUNNING being true: the bound check, the fetch, the operands, the opcode, and the
instruction's own effect, in the order of R104. -/
def cycleTask (s : State) (t : Task) : Host.Outcome State Fault Refusal :=
  if s.codeSize ≤ u32 t.pc then codeOverflow s
  else
    match s.fetch (u32 t.pc) with
    | .ok i => exec i (s.putTask (t.advance i.length))
    | .error (.unknownOpcode _ literals) => raise (s.putTask (t.advance (1 + literals))) .unknownInstruction
    | .error .immPastEnd => .fault .immPastEnd
    | .error .noWord => codeOverflow s

/-- CYCLE (R103): NOT_RUNNING changes nothing (R86); no current task is UNDEFINED (R87). -/
def cycle (s : State) : Host.Outcome State Fault Refusal :=
  if s.running then onCurrent s (cycleTask s) else raise s .notRunning

end Sys2Proof.Machine
end

