-- ==== Sys2Proof/Machine/HostCalls.lean ====
section
/-! DEFINITION. The operations of the block's interface on a VM: load, cycle, switch, block, create, remove, unload
(60_exceptions.md R152 to R155, R158, R159; 70_reset_and_hazards.md R161 to R166). -/

namespace Sys2Proof.Machine

/-- The registers of a new task: the 16 seeds if given, else 0 (10_state.md R19). -/
def seedRegs (seeds : Option RegFile) : RegFile :=
  match seeds with
  | some regs => regs
  | none => Vector.replicate 16 0

/-- Task init (70_reset_and_hazards.md R162). The stacks have the sizes the metadata asks for; what they hold is free
(log entry 8). The pc is not checked. -/
def initTask (h : Handle) (pc : Word) (seeds : Option RegFile) (m : ImageMeta) (draw : Nat) : Task where
  handle := h
  regs := seedRegs seeds
  flags := Flags.allClear
  pc := pc
  rpc := 0
  sp := 0
  ds := (List.range m.dataStackSize).map (Config.dataStackFill draw)
  cs := (List.range m.callStackSize).map (Config.callStackFill draw)

/-- load: install the image, create task 0 at pc 0, make it current, set RUNNING; BAD_ALLOC changes nothing (R163). With
an image already loaded it is outside its precondition (R159). -/
def load (words : List Word) (m : ImageMeta) (seeds : Option RegFile) (alloc : Option Handle) (s : State) :
    Host.Outcome State Fault Refusal :=
  if s.code.isSome then .fault .hostProtocol
  else if Config.maxCodeSize < words.length then .refused .imageTooLarge
  else
    match alloc with
    | none => raise s .badAlloc
    | some h =>
      .next ({ s with
        code := some (CodeImage.ofWords words m)
        ring := [initTask h 0 seeds m s.draws]
        cur := some h
        running := true
        draws := s.draws + 1 }.answer .ok)

/-- The task after a handle's in ring order, where the handle's task is not the last (10_state.md R38). -/
def successorIn (h : Handle) : List Task → Option Handle
  | [] => none
  | t :: rest => if t.handle = h then (rest.head?).map Task.handle else successorIn h rest

/-- switch: blocked while TSB is set; from null to head, else to the successor, the last task's being head
(60_exceptions.md R154). -/
def switchTask (s : State) : Host.Outcome State Fault Refusal :=
  if s.tsb then raise s .taskSwitchBlocked
  else
    let head := (s.ring.head?).map Task.handle
    let next :=
      match s.cur with
      | none => head
      | some h =>
        match successorIn h s.ring with
        | some h' => some h'
        | none => head
    .next ({ s with cur := next }.answer .ok)

/-- block(b): TSB gets b (R155). -/
def blockSwitch (b : Bool) (s : State) : Host.Outcome State Fault Refusal := .next ({ s with tsb := b }.answer .ok)

/-- create: a new task at the tail of the ring, and its handle; BAD_ALLOC changes nothing (R152). Without an image it is
outside its precondition (R159). -/
def create (pc : Word) (seeds : Option RegFile) (alloc : Option Handle) (s : State) :
    Host.Outcome State Fault Refusal :=
  match s.code with
  | none => .fault .hostProtocol
  | some img =>
    match alloc with
    | none => raise s .badAlloc
    | some h =>
      if (s.task h).isSome then .refused .handleInUse
      else
        .next { s with
          ring := s.ring ++ [initTask h pc seeds img.metadata s.draws]
          reply := { code := .ok, handle := some h }
          draws := s.draws + 1 }

/-- remove: take a task out of the ring, the others keeping their order; TASK_NOT_FOUND changes nothing, and the current
task cannot be removed (R153, R159). -/
def remove (h : Handle) (s : State) : Host.Outcome State Fault Refusal :=
  if (s.task h).isNone then raise s .taskNotFound
  else if s.cur = some h then .fault .hostProtocol
  else .next ({ s with ring := s.ring.filter (fun t => t.handle != h) }.answer .ok)

/-- unload: release every task and the image; TSB, the host context and the handler stay (70_reset_and_hazards.md
R164). Without an image it is outside its precondition (R159). -/
def unload (s : State) : Host.Outcome State Fault Refusal :=
  if s.code.isNone then .fault .hostProtocol
  else .next ({ s with code := none, ring := [], cur := none, running := false }.answer .ok)

/-- One operation of the interface (60_exceptions.md R158). While FAULT is set none has a step (10_state.md R41). -/
def serve (c : HostCall) (s : State) : Host.Outcome State Fault Refusal :=
  match s.fault with
  | some r => .fault r
  | none =>
    match c with
    | .load words m seeds alloc => load words m seeds alloc s
    | .cycle => cycle s
    | .switchTask => switchTask s
    | .block b => blockSwitch b s
    | .create pc seeds alloc => create pc seeds alloc s
    | .remove h => remove h s
    | .unload => unload s

/-- The task the next cycle can run: the current one, else the head of the ring, else a new task 0 as load makes it
(R162, R163). -/
def readyTask (s : State) : Task :=
  match s.currentTask with
  | some t => t
  | none =>
    match s.ring with
    | t :: _ => t
    | [] => initTask 0 0 none { initialCallStackSize := 0, initialDataStackSize := 0 } s.draws

/-- The state with a sequence of words in the image at the pc of the task the next cycle runs, the image being long
enough to hold them, and with all that the next cycle needs to fetch there (log entry 1). -/
def placeInstruction (s : State) (words : List Word) : State :=
  let t := readyTask s
  let img := s.code.getD
    { size := 0, bytes := [], metadata := { initialCallStackSize := 0, initialDataStackSize := 0 } }
  { s with
    running := true
    code := some { img with
      size := max img.size (u32 t.pc + words.length)
      bytes := Memory.writeBytes img.bytes (4 * u32 t.pc) (bytesOfWords words) }
    ring := if s.ring.isEmpty then [t] else s.ring
    cur := some t.handle
    fault := none
    calls := [] }

end Sys2Proof.Machine
end

