-- ==== Sys2Proof/Machine/Step.lean ====
section
/-! DEFINITION. One step of the machine: the next operation of the host is served; where none is waiting, the host drives
another cycle (60_exceptions.md R158; log entry 2). -/

namespace Sys2Proof.Machine

/-- Serve the first waiting operation, or run one cycle. -/
def step (s : State) : Host.Outcome State Fault Refusal :=
  match s.calls with
  | [] => serve .cycle s
  | c :: rest => serve c { s with calls := rest }

/-- `s` with one instruction, the `nbits` bits of `w` and zeros above them, stored where the next step fetches: three
words at the current task's pc. A machine with nothing loaded or nothing running is given what the fetch needs: an image,
a current task (task 0 as a load makes it), RUNNING, no waiting operation and no FAULT (log entry 1). -/
def State.withFetchWord (s : State) (nbits w : Nat) : State :=
  placeInstruction s (instructionWords nbits w)

end Sys2Proof.Machine
end

