-- ==== Sys2Proof/Safety.lean ====
section
/-! DEFINITION. The terms claims are written in: the invariant of the machine (10_state.md R42), its lifecycle states
(70_reset_and_hazards.md R165), the ends of a run (60_exceptions.md R160), and what an operation leaves unchanged. -/

namespace Sys2Proof.Machine

/-! ## The invariant (10_state.md R42) -/

/-- Invariant 2 of R42: 0 ≤ sp ≤ DATA_STACK_SIZE and 0 ≤ rpc ≤ CALL_STACK_SIZE. -/
def Task.stacksInBounds (t : Task) : Prop := t.sp ≤ t.ds.length ∧ t.rpc ≤ t.cs.length

/-- Invariant 1 of R42, for a task that only instructions have moved: pc, and every return address it holds, is at most
CODE_SIZE (R24, R35). -/
def Task.pcsInBounds (codeSize : Nat) (t : Task) : Prop :=
  t.pc.toNat ≤ codeSize ∧ ∀ k < t.rpc, ∃ v, t.cs[k]? = some v ∧ v.toNat ≤ codeSize

/-- What every operation keeps: handles name one task each (R38), stacks are within their buffers (R42), and the VM
either has no image, no task and does not run, or has an image the hardware allows and a current task in the ring
(R39, R165). -/
structure State.Inv (s : State) : Prop where
  handles : (s.ring.map Task.handle).Nodup
  bounds : ∀ t ∈ s.ring, t.stacksInBounds
  idle : s.code = none → s.ring = [] ∧ s.cur = none ∧ s.running = false
  loaded : ∀ img, s.code = some img → img.wf ∧ ∃ t, s.currentTask = some t

/-! ## Lifecycle (70_reset_and_hazards.md R165) -/

/-- Idle: no image, not running. -/
def State.isIdle (s : State) : Prop := s.code = none ∧ s.running = false

/-- Running: an image, and RUNNING. -/
def State.isRunning (s : State) : Prop := s.code.isSome = true ∧ s.running = true

/-- Halted: an image, not running. -/
def State.isHalted (s : State) : Prop := s.code.isSome = true ∧ s.running = false

/-- The next step runs a cycle: nothing waits to be served and no FAULT is recorded. -/
def State.cycleIsNext (s : State) : Prop := s.calls = [] ∧ s.fault = none

/-- The instruction that the next cycle of the current task executes. -/
def State.fetches (s : State) (t : Task) (i : Instr) : Prop :=
  s.running = true ∧ s.currentTask = some t ∧ ∃ rest, decode (s.fetchWords t.pc.toNat) = .ok (i, rest)

/-- The next step is a cycle: the first waiting operation is one, or none waits (log entry 2). -/
def State.stepIsCycle (s : State) : Prop := s.calls = [] ∨ ∃ rest, s.calls = .cycle :: rest

/-- A run of the host loop ends cleanly with the step from `s` to `s'`: a cycle that executes an END whose predicate holds
and returns OK, RUNNING false after it (60_exceptions.md R160). -/
def cleanEnd (s s' : State) : Prop :=
  s.stepIsCycle ∧ step s = .next s' ∧ s'.reply.code = .ok ∧ s'.running = false ∧
    ∃ t e a b, s.fetches t (.endVm e a b) ∧ t.flags.holds e = true

/-- A run ends in error with the step from `s` to `s'`: a cycle that returns CODE_OVERFLOW, RUNNING false after it. No other
error result is an end (R160). -/
def errorEnd (s s' : State) : Prop :=
  s.stepIsCycle ∧ step s = .next s' ∧ s'.reply.code = .codeOverflow ∧ s'.running = false

/-! ## What an operation leaves unchanged -/

/-- Everything of `s'` is as in `s` but for the current task's record, RUNNING, the host context, the count of draws and
the reply: every other task, the order of the ring, CUR, TSB, the code image, the handler, FAULT, the parameters and the
waiting operations. -/
structure OthersUnchanged (s s' : State) : Prop where
  tasks : ∀ h, s.cur ≠ some h → s'.task h = s.task h
  order : s'.ring.map Task.handle = s.ring.map Task.handle
  cur : s'.cur = s.cur
  tsb : s'.tsb = s.tsb
  code : s'.code = s.code
  handler : s'.handler = s.handler
  fault : s'.fault = s.fault
  params : s'.params = s.params
  calls : s'.calls = s.calls

/-- The operation from `s` ends in a next state whose current task is `t'`, with result `code`, and changes nothing
else. -/
def Settles (s : State) (t' : Task) (code : ResultCode) (o : Host.Outcome State Fault Refusal) : Prop :=
  ∃ s', o = .next s' ∧ s'.currentTask = some t' ∧ s'.reply = { code := code, handle := none } ∧
    OthersUnchanged s s' ∧ s'.running = s.running ∧ s'.hostCtx = s.hostCtx ∧ s'.draws = s.draws

/-- `n` entries of a data stack starting at `sp` are `v 0`, `v 1`, …, the others as before, and sp is `n` more: a push of
`n` values. -/
structure PushedEntries (t t' : Task) (n : Nat) (v : Nat → Word) : Prop where
  sp : t'.sp = t.sp + n
  entries : ∀ k < n, t'.ds[t.sp + k]? = some (v k)
  others : ∀ k, k < t.sp ∨ t.sp + n ≤ k → t'.ds[k]? = t.ds[k]?
  handle : t'.handle = t.handle
  regs : t'.regs = t.regs
  flags : t'.flags = t.flags
  pc : t'.pc = t.pc
  rpc : t'.rpc = t.rpc
  cs : t'.cs = t.cs

/-- A task as task init leaves it (70_reset_and_hazards.md R162); what its stacks hold is not said. -/
structure FreshTask (t : Task) (pc : Word) (seeds : Option RegFile) (m : ImageMeta) : Prop where
  seeded : ∀ regs, seeds = some regs → t.regs = regs
  unseeded : seeds = none → ∀ r, t.readReg r = 0
  flags : t.flags = ⟨false, false, false, false, false, false, false, false⟩
  pc : t.pc = pc
  rpc : t.rpc = 0
  sp : t.sp = 0
  dataStack : t.ds.length = if m.initialDataStackSize = 0 then 32 else m.initialDataStackSize
  callStack : t.cs.length = if m.initialCallStackSize = 0 then 8 else m.initialCallStackSize

/-- How many literal words an instruction word asks for: one for each argument type byte equal to 17 (30_encoding.md
R63). -/
def literalCount (w : Word) : Nat := (if byteOf w 2 = 17 then 1 else 0) + (if byteOf w 3 = 17 then 1 else 0)

/-- The PUSH forms with a meaning: a literal, a register, an ascending range (42_stack.md R108). -/
def pushAccepts (a b : Arg) : Prop :=
  (∃ v, a = .imm v ∧ argIsNone b = true) ∨ (∃ d, a = .reg d ∧ argIsNone b = true) ∨
    ∃ lo hi : RegNum, lo < hi ∧ a = .reg lo ∧ b = .reg hi

/-- The POP forms with a meaning: a register, an ascending range (R109). -/
def popAccepts (a b : Arg) : Prop :=
  (∃ d, a = .reg d ∧ argIsNone b = true) ∨ ∃ lo hi : RegNum, lo < hi ∧ a = .reg lo ∧ b = .reg hi

/-- The flags after SetNZZ with a value (40_cycle.md R95). -/
def nzzFlags (f : Flags) (v : Word) : Flags :=
  { f with nz := f.nz || decide (v ≠ 0), z := f.z || decide (v = 0) }

/-- The ten instructions with a register destination (40_cycle.md R95, R103). -/
def isRegDest : Instr → Bool
  | .mov _ _ _ | .add _ _ _ | .sub _ _ _ | .mul _ _ _ | .div _ _ _ => true
  | .and _ _ _ | .or _ _ _ | .xor _ _ _ | .shl _ _ _ | .shr _ _ _ => true
  | .nop _ _ _ | .endVm _ _ _ | .push _ _ _ | .pop _ _ _ | .cmp _ _ _ => false
  | .clf _ _ _ | .jmp _ _ _ | .inv _ _ _ | .ret _ _ _ | .sys _ _ _ => false

end Sys2Proof.Machine
end

