-- ==== Sys2Proof/Certificates/Slice0/Obligations.lean ====
section
/-! DEFINITION. The statements about the SVM core that are to be proved or refuted, each with the rule of spec/ it
formalises. A statement that rests on one of the spec's own decisions D<n> or on a choice of the model says so. -/

open Sys2Proof Sys2Proof.Machine

/-! ## Encoding (30_encoding.md, 20_memory.md) -/

/-- Decoding the words of a well-formed instruction gives it back, whatever follows them (R60 to R66). -/
def Obligations.DecodeOfEncodeGivesInstrBack : Prop :=
  ∀ (i : Instr) (rest : List Word), i.wellFormed = true → decode (encode i ++ rest) = .ok (i, rest)

/-- Every decoded instruction is well formed and its encoding is the words it was decoded from: no bit is dropped. -/
def Obligations.DecodedInstrEncodesToItsWords : Prop :=
  ∀ (ws rest : List Word) (i : Instr), decode ws = .ok (i, rest) → i.wellFormed = true ∧ encode i ++ rest = ws

/-- R61: packing puts the four bytes at bits 7:0, 15:8, 23:16 and 31:24, unpacking takes them from there, and the two are
inverse bijections. -/
def Obligations.PackAndUnpackAreInverse : Prop :=
  (∀ op e a b : Byte, (pack op e a b).toNat =
    op.toNat + e.toNat * 2 ^ 8 + a.toNat * 2 ^ 16 + b.toNat * 2 ^ 24) ∧
  (∀ w : Word, (unpack w).1.toNat = w.toNat % 2 ^ 8 ∧ (unpack w).2.1.toNat = w.toNat / 2 ^ 8 % 2 ^ 8 ∧
    (unpack w).2.2.1.toNat = w.toNat / 2 ^ 16 % 2 ^ 8 ∧ (unpack w).2.2.2.toNat = w.toNat / 2 ^ 24) ∧
  (∀ op e a b : Byte, unpack (pack op e a b) = (op, e, a, b)) ∧
  (∀ w : Word, pack (unpack w).1 (unpack w).2.1 (unpack w).2.2.1 (unpack w).2.2.2 = w)

/-- R63: an instruction has one literal word for each argument byte equal to 17, arg1's first, and this does not depend on
the opcode: an unknown opcode has them too. -/
def Obligations.LiteralsFollowTheArgumentBytes : Prop :=
  ∀ (w : Word) (rest : List Word), literalCount w ≤ rest.length →
    ((byteOf w 0).toNat < 20 → ∃ i, decode (w :: rest) = .ok (i, rest.drop (literalCount w)) ∧
      i.length = 1 + literalCount w ∧ i.arg1.literals ++ i.arg2.literals = rest.take (literalCount w) ∧
      (i.arg1.literals = [] ↔ byteOf w 2 ≠ 17) ∧ (i.arg2.literals = [] ↔ byteOf w 3 ≠ 17)) ∧
    (20 ≤ (byteOf w 0).toNat → decode (w :: rest) = .error (.unknownOpcode (byteOf w 0) (literalCount w)))

/-- R64: what each argument-type byte means, and the value and register number it gives at operand fetch. -/
def Obligations.ArgumentTypeCodes : Prop :=
  ∀ (b : Byte) (t : Task) (literal : Word) (rest : List Word),
    (b.toNat = 0 → decodeArg b rest = .ok (.none, rest) ∧ argValue t .none = none) ∧
    (1 ≤ b.toNat ∧ b.toNat ≤ 16 → ∃ r : RegNum, r.val = b.toNat - 1 ∧ decodeArg b rest = .ok (.reg r, rest) ∧
      argValue t (.reg r) = some t.regs[r]) ∧
    (b.toNat = 17 → decodeArg b (literal :: rest) = .ok (.imm literal, rest) ∧
      argValue t (.imm literal) = some literal) ∧
    (18 ≤ b.toNat → ∃ a, decodeArg b rest = .ok (a, rest) ∧ argValue t a = none)

/-- R92: the predicate an `ext` byte selects. -/
def Obligations.PredicateFollowsExtByte : Prop :=
  ∀ f : Flags, f.holds (decodeExt 0) = true ∧ f.holds (decodeExt 1) = f.eq ∧ f.holds (decodeExt 2) = f.ne ∧
    f.holds (decodeExt 3) = f.lt ∧ f.holds (decodeExt 4) = f.le ∧ f.holds (decodeExt 5) = f.gt ∧
    f.holds (decodeExt 6) = f.ge ∧ f.holds (decodeExt 7) = f.nz ∧ f.holds (decodeExt 8) = f.z ∧
    ∀ b : Byte, 9 ≤ b.toNat → f.holds (decodeExt b) = true

/-- Words of the spec's own examples (R83) decode to the instructions they stand for, one or more for each family. -/
def Obligations.SpecExampleWordsDecode : Prop :=
  decode [0x11010102, 0x63] = .ok (.mov (.flag .eq) (.reg 0) (.imm 99), []) ∧
  decode [0x10040002] = .ok (.mov .none (.reg 3) (.reg 15), []) ∧
  decode [0x00000001] = .ok (.endVm .none .none .none, []) ∧
  decode [0x03010003] = .ok (.push .none (.reg 0) (.reg 2), []) ∧
  decode [0x03010004] = .ok (.pop .none (.reg 0) (.reg 2), []) ∧
  decode [0x11020705, 1] = .ok (.add (.flag .nz) (.reg 1) (.imm 1), []) ∧
  decode [0x0201000D] = .ok (.shr .none (.reg 0) (.reg 1), []) ∧
  decode [0x1111000E, 5, 7] = .ok (.cmp .none (.imm 5) (.imm 7), []) ∧
  decode [0x0000080F] = .ok (.clf (.flag .z) .none .none, []) ∧
  decode [0x00110310, 0xC] = .ok (.jmp (.flag .lt) (.imm 12) .none, []) ∧
  decode [0x00110011, 3] = .ok (.inv .none (.imm 3) .none, []) ∧
  decode [0x00000012] = .ok (.ret .none .none .none, []) ∧
  decode [0x00110013, 1] = .ok (.sys .none (.imm 1) .none, [])

/-- A loaded image holds word `i` at byte addresses `4 i` to `4 i + 3`, least significant byte first, and CodeRead gives
the words back, at the indices below CODE_SIZE and no others (R45, R46). -/
def Obligations.LoadedImageReadsAsItsWords : Prop :=
  ∀ (words : List Word) (m : ImageMeta),
    (∀ i k, k < 4 →
      (CodeImage.ofWords words m).readByte (4 * i + k) = (words[i]?).map (fun w => byteOf w k)) ∧
    ∀ a, (CodeImage.ofWords words m).codeRead a = words[a]?

/-! ## The cycle (40_cycle.md) -/

/-- When the words at the current task's pc decode to an instruction, a step is that instruction's meaning, run after pc
has moved past the instruction's words (R89, R90, R94, R103). -/
def Obligations.StepRunsDecodedInstruction : Prop :=
  ∀ (s : State) (t : Task) (i : Instr), s.cycleIsNext → s.fetches t i →
    step s = exec i (s.putTask { t with pc := t.pc + BitVec.ofNat 32 i.length }) ∧
    (s.putTask { t with pc := t.pc + BitVec.ofNat 32 i.length }).currentTask =
      some { t with pc := t.pc + BitVec.ofNat 32 i.length }

/-- The model's choice (log entry 2): a step serves the operation the host has issued first, and where none waits it is a
cycle. -/
def Obligations.StepServesTheFirstWaitingOperation : Prop :=
  ∀ s : State, (s.calls = [] → step s = serve .cycle s) ∧
    ∀ c rest, s.calls = c :: rest → step s = serve c { s with calls := rest }

/-- R86: a cycle with RUNNING false returns NOT_RUNNING and changes nothing. -/
def Obligations.CycleWhileNotRunningChangesNothing : Prop :=
  ∀ s : State, s.cycleIsNext → s.running = false →
    step s = .next { s with reply := { code := .notRunning, handle := none } }

/-- R88: a cycle whose pc is at or past CODE_SIZE clears RUNNING, writes nothing else, returns CODE_OVERFLOW, and so halts
every task: whichever is current next, its cycle returns NOT_RUNNING. -/
def Obligations.CodeOverflowHaltsEveryTask : Prop :=
  ∀ (s : State) (t : Task), s.cycleIsNext → s.code.isSome = true → s.running = true → s.currentTask = some t →
    s.codeSize ≤ t.pc.toNat →
    ∃ s', step s = .next s' ∧
      s' = { s with running := false, reply := { code := .codeOverflow, handle := none } } ∧
      ∀ cur, step { s' with cur := cur } =
        .next { s' with cur := cur, reply := { code := .notRunning, handle := none } }

/-- R67: an opcode byte 20 .. 255 is reported as UNKNOWN_INSTRUCTION after its word and its literals are consumed; nothing
else changes. -/
def Obligations.UnknownOpcodeIsReported : Prop :=
  ∀ (s : State) (t : Task) (w : Word) (rest : List Word), s.cycleIsNext → s.running = true →
    s.currentTask = some t → s.fetchWords t.pc.toNat = w :: rest → 20 ≤ (byteOf w 0).toNat →
    literalCount w ≤ rest.length →
    Settles s { t with pc := t.pc + BitVec.ofNat 32 (1 + literalCount w) } .unknownInstruction (step s)

/-- The spec's decisions D18 and D39 (R87, R91): a literal past the end of the image, and a cycle with RUNNING true and no
current task, are UNDEFINED. -/
def Obligations.CycleUndefinedCases : Prop :=
  (∀ (s : State) (t : Task) (w : Word) (rest : List Word), s.cycleIsNext → s.running = true →
    s.currentTask = some t → s.fetchWords t.pc.toNat = w :: rest → rest.length < literalCount w →
    step s = .fault .immPastEnd) ∧
  (∀ s : State, s.cycleIsNext → s.running = true → s.currentTask = none → step s = .fault .noCurrentTask)

/-! ## Reset, lifecycle and the host's operations (60_exceptions.md, 70_reset_and_hazards.md) -/

/-- The state after init (R161; TSB is the spec's decision D21): no image, no task, not running, no FAULT, and a cycle
returns NOT_RUNNING. -/
def Obligations.InitLeavesAnIdleVm : Prop :=
  ∀ (c : HostCtx) (h : Option Handler) (p : Params), ∃ s, s = State.init c h p ∧
    s.running = false ∧ s.tsb = false ∧ s.code = none ∧ s.ring = [] ∧ s.cur = none ∧ s.hostCtx = c ∧ s.handler = h ∧
    s.fault = none ∧ step s = .next { s with reply := { code := .notRunning, handle := none } }

/-- load (R163; the spec's decisions D20, D21, D26): the image is installed, task 0 is made at pc 0 by task init, alone in
the ring and current, RUNNING is set, and TSB, the host context and the handler stay. -/
def Obligations.LoadStartsTaskZero : Prop :=
  ∀ (s : State) (words : List Word) (m : ImageMeta) (seeds : Option RegFile) (h : Handle),
    s.fault = none → s.code = none → words.length ≤ 2 ^ 31 - 1 →
    ∃ s' t img, serve (.load words m seeds (some h)) s = .next s' ∧
      s'.code = some img ∧ img.size = words.length ∧ img.metadata = m ∧ (∀ a, img.codeRead a = words[a]?) ∧
      s'.ring = [t] ∧ t.handle = h ∧ FreshTask t 0 seeds m ∧ s'.currentTask = some t ∧ s'.running = true ∧
      s'.tsb = s.tsb ∧ s'.hostCtx = s.hostCtx ∧ s'.handler = s.handler ∧ s'.params = s.params ∧
      s'.calls = s.calls ∧ s'.fault = none ∧ s'.reply = { code := .ok, handle := none }

/-- create (R152; the spec's decision D30): a new task, made by task init at the given pc, which is not checked (R162),
goes to the tail of the ring and its handle to the host; nothing else changes. -/
def Obligations.CreateAppendsAFreshTask : Prop :=
  ∀ (s : State) (img : CodeImage) (pc : Word) (seeds : Option RegFile) (h : Handle),
    s.fault = none → s.code = some img → s.task h = none →
    ∃ s' t, serve (.create pc seeds (some h)) s = .next s' ∧ t.handle = h ∧ FreshTask t pc seeds img.metadata ∧
      s'.ring = s.ring ++ [t] ∧ s'.reply = { code := .ok, handle := some h } ∧ s'.cur = s.cur ∧
      s'.running = s.running ∧ s'.tsb = s.tsb ∧ s'.code = s.code ∧ s'.hostCtx = s.hostCtx ∧
      s'.handler = s.handler ∧ s'.params = s.params ∧ s'.calls = s.calls ∧ s'.fault = none

/-- remove (R153; the spec's decision D29): a task that is not in the ring is TASK_NOT_FOUND and nothing changes; one that
is not current is taken out, the others keeping their order; the current one is UNDEFINED. -/
def Obligations.RemoveUnlinksATask : Prop :=
  ∀ (s : State) (h : Handle), s.fault = none → (s.ring.map Task.handle).Nodup →
    (s.task h = none →
      serve (.remove h) s = .next { s with reply := { code := .taskNotFound, handle := none } }) ∧
    (∀ t before after, s.ring = before ++ t :: after → t.handle = h → s.cur ≠ some h →
      serve (.remove h) s =
        .next { s with ring := before ++ after, reply := { code := .ok, handle := none } }) ∧
    (∀ t, s.task h = some t → s.cur = some h → serve (.remove h) s = .fault .hostProtocol)

/-- R154: switch is refused while TSB is set; from null it goes to head (null for an empty ring), from the last task to
head, from any other task to the next one; it changes no task. -/
def Obligations.SwitchFollowsTheRing : Prop :=
  ∀ (s : State), s.fault = none → (s.ring.map Task.handle).Nodup →
    (s.tsb = true →
      serve .switchTask s = .next { s with reply := { code := .taskSwitchBlocked, handle := none } }) ∧
    (s.tsb = false → s.cur = none → serve .switchTask s =
      .next { s with cur := (s.ring.head?).map Task.handle, reply := { code := .ok, handle := none } }) ∧
    (s.tsb = false → ∀ t u before after, s.ring = before ++ t :: u :: after → s.cur = some t.handle →
      serve .switchTask s = .next { s with cur := some u.handle, reply := { code := .ok, handle := none } }) ∧
    (s.tsb = false → ∀ t before, s.ring = before ++ [t] → s.cur = some t.handle →
      serve .switchTask s =
        .next { s with cur := (s.ring.head?).map Task.handle, reply := { code := .ok, handle := none } })

/-- R155: block(b) sets TSB to b and returns OK, and no instruction reads or writes TSB: with another TSB an instruction
does the same and leaves that TSB. -/
def Obligations.OnlyTheHostSeesTsb : Prop :=
  (∀ (s : State) (b : Bool), s.fault = none →
    serve (.block b) s = .next { s with tsb := b, reply := { code := .ok, handle := none } }) ∧
  ∀ (i : Instr) (s : State) (b : Bool),
    (∀ s', exec i s = .next s' → exec i { s with tsb := b } = .next { s' with tsb := b } ∧ s'.tsb = s.tsb) ∧
    (∀ r, exec i s = .fault r → exec i { s with tsb := b } = .fault r)

/-- unload (R164; the spec's decisions D21, D22): every task and the image are released, CUR is null, RUNNING false; TSB,
the host context and the handler stay. -/
def Obligations.UnloadReleasesEverything : Prop :=
  ∀ (s : State), s.fault = none → s.code.isSome = true →
    serve .unload s = .next { s with
      code := none, ring := [], cur := none, running := false, reply := { code := .ok, handle := none } }

/-- load, create and unload that do nothing: when the allocator refuses the memory, load and create return BAD_ALLOC and
change nothing (R158; the spec's decision D26); load with an image loaded, unload and create with none, are UNDEFINED
(R159; the spec's decisions D30 and D36). -/
def Obligations.HostOperationsWithoutEffect : Prop :=
  ∀ (s : State), s.fault = none →
    (∀ words m seeds, s.code = none → words.length ≤ 2 ^ 31 - 1 →
      serve (.load words m seeds none) s = .next { s with reply := { code := .badAlloc, handle := none } }) ∧
    (∀ img pc seeds, s.code = some img →
      serve (.create pc seeds none) s = .next { s with reply := { code := .badAlloc, handle := none } }) ∧
    (∀ words m seeds alloc, s.code.isSome = true → serve (.load words m seeds alloc) s = .fault .hostProtocol) ∧
    (s.code = none → serve .unload s = .fault .hostProtocol) ∧
    (∀ pc seeds alloc, s.code = none → serve (.create pc seeds alloc) s = .fault .hostProtocol)

/-- The spec's decision D31 (R11, R41): an UNDEFINED outcome is recorded in FAULT, nothing else changes, and from then on
no operation of the host and no cycle has a step. -/
def Obligations.FaultHasNoFurtherStep : Prop :=
  ∀ (s : State) (r : Fault), (s.latch (.fault r)).fault = some r ∧
    { s.latch (.fault r) with fault := s.fault } = s ∧
    ∀ s' : State, s'.fault = some r → (∀ c, serve c s' = .fault r) ∧ step s' = .fault r

/-- R150: in the halted state a cycle returns NOT_RUNNING and changes nothing, and of the host's operations only unload
ends it; every other one leaves RUNNING false, the image, the host context, the handler, the parameters, FAULT none, and
every task's registers, flags, pc and stacks, but for the task a remove takes out; only create and remove change the ring,
only block TSB, and only switch CUR. -/
def Obligations.HaltedUntilUnload : Prop :=
  ∀ (s : State), s.isHalted → s.fault = none →
    serve .cycle s = .next { s with reply := { code := .notRunning, handle := none } } ∧
    ∀ c s', c ≠ .unload → serve c s = .next s' → s'.isHalted ∧ s'.code = s.code ∧
      s'.hostCtx = s.hostCtx ∧ s'.handler = s.handler ∧ s'.params = s.params ∧ s'.fault = none ∧
      (∀ h t, s.task h = some t → c ≠ .remove h → s'.task h = some t) ∧
      ((∀ pc seeds alloc, c ≠ .create pc seeds alloc) → (∀ h, c ≠ .remove h) → s'.ring = s.ring) ∧
      ((∀ b, c ≠ .block b) → s'.tsb = s.tsb) ∧ (c ≠ .switchTask → s'.cur = s.cur)

/-! ## NOP, END, MOV (41_move_misc.md) -/

/-- R105: NOP does nothing and returns OK, whatever its extension and arguments. -/
def Obligations.NopDoesNothing : Prop :=
  ∀ (s : State) (e : Ext) (a b : Arg),
    exec (.nop e a b) s = .next { s with reply := { code := .ok, handle := none } }

/-- END (R106; that the predicate gates it is the spec's decision D8): it clears RUNNING and nothing else if the predicate
holds, and does nothing if it does not. -/
def Obligations.EndClearsRunning : Prop :=
  ∀ (s : State) (t : Task) (e : Ext) (a b : Arg), s.currentTask = some t →
    (t.flags.holds e = true →
      exec (.endVm e a b) s = .next { s with running := false, reply := { code := .ok, handle := none } }) ∧
    (t.flags.holds e = false →
      exec (.endVm e a b) s = .next { s with reply := { code := .ok, handle := none } })

/-- MOV (R107), predicate true: Rd gets the source, NZ or Z is set, and nothing else changes. -/
def Obligations.MovWritesTheSource : Prop :=
  ∀ (s : State) (t : Task) (e : Ext) (d : RegNum) (b : Arg) (v : Word),
    s.currentTask = some t → t.flags.holds e = true → argValue t b = some v →
    Settles s { t with regs := t.regs.set d v, flags := nzzFlags t.flags v } .ok (exec (.mov e (.reg d) b) s)

/-! ## Arithmetic (43_arith.md) -/

/-- ADD, SUB and MUL (R114 to R116; wrapping is the spec's decision D2), predicate true: Rd gets the low 32 bits of the
result, NZ or Z is set, and nothing else changes. -/
def Obligations.AddSubMulWrap : Prop :=
  ∀ (s : State) (t : Task) (e : Ext) (d : RegNum) (b : Arg) (v : Word),
    s.currentTask = some t → t.flags.holds e = true → argValue t b = some v →
    Settles s { t with regs := t.regs.set d (t.regs[d] + v), flags := nzzFlags t.flags (t.regs[d] + v) } .ok
      (exec (.add e (.reg d) b) s) ∧
    Settles s { t with regs := t.regs.set d (t.regs[d] - v), flags := nzzFlags t.flags (t.regs[d] - v) } .ok
      (exec (.sub e (.reg d) b) s) ∧
    Settles s { t with regs := t.regs.set d (t.regs[d] * v), flags := nzzFlags t.flags (t.regs[d] * v) } .ok
      (exec (.mul e (.reg d) b) s)

/-- DIV (R117), predicate true: Rd gets exactly the signed quotient truncated toward zero (the spec's decision D3), NZ or Z
is set, and nothing else changes; a divisor of 0 and -2^31 by -1 are UNDEFINED (the spec's decisions D4 and D5). -/
def Obligations.DivTruncatesTowardZero : Prop :=
  ∀ (s : State) (t : Task) (e : Ext) (d : RegNum) (b : Arg) (v : Word),
    s.currentTask = some t → t.flags.holds e = true → argValue t b = some v →
    (v ≠ 0 → ¬ (t.regs[d].toInt = -(2 ^ 31) ∧ v.toInt = -1) →
      ∃ r : Word, r.toInt = Int.tdiv t.regs[d].toInt v.toInt ∧
        Settles s { t with regs := t.regs.set d r, flags := nzzFlags t.flags r } .ok
          (exec (.div e (.reg d) b) s)) ∧
    (v = 0 → exec (.div e (.reg d) b) s = .fault .divByZero) ∧
    (t.regs[d].toInt = -(2 ^ 31) → v.toInt = -1 → exec (.div e (.reg d) b) s = .fault .divOverflow)

/-! ## Logic and shifts (44_logic_shift.md) -/

/-- AND, OR and XOR (R119 to R121), predicate true: every bit of Rd is the operation on the two bits, NZ or Z is set, and
nothing else changes. -/
def Obligations.BitwiseResults : Prop :=
  ∀ (s : State) (t : Task) (e : Ext) (d : RegNum) (b : Arg) (v : Word),
    s.currentTask = some t → t.flags.holds e = true → argValue t b = some v →
    (∃ r : Word, (∀ k < 32, r.getLsbD k = (t.regs[d].getLsbD k && v.getLsbD k)) ∧
      Settles s { t with regs := t.regs.set d r, flags := nzzFlags t.flags r } .ok (exec (.and e (.reg d) b) s)) ∧
    (∃ r : Word, (∀ k < 32, r.getLsbD k = (t.regs[d].getLsbD k || v.getLsbD k)) ∧
      Settles s { t with regs := t.regs.set d r, flags := nzzFlags t.flags r } .ok (exec (.or e (.reg d) b) s)) ∧
    (∃ r : Word, (∀ k < 32, r.getLsbD k = (t.regs[d].getLsbD k ^^ v.getLsbD k)) ∧
      Settles s { t with regs := t.regs.set d r, flags := nzzFlags t.flags r } .ok (exec (.xor e (.reg d) b) s))

/-- SHL and SHR (R122, R123; five count bits and an arithmetic SHR are the spec's decisions D6 and D7), predicate true: Rd
gets the value times 2^count modulo 2^32, or the floor of the signed value by 2^count; NZ or Z is set, and nothing else
changes. -/
def Obligations.ShiftResults : Prop :=
  ∀ (s : State) (t : Task) (e : Ext) (d : RegNum) (b : Arg) (v : Word),
    s.currentTask = some t → t.flags.holds e = true → argValue t b = some v →
    (∃ r : Word, r.toNat = t.regs[d].toNat * 2 ^ (v.toNat % 32) % 2 ^ 32 ∧
      Settles s { t with regs := t.regs.set d r, flags := nzzFlags t.flags r } .ok (exec (.shl e (.reg d) b) s)) ∧
    (∃ r : Word, r.toInt = Int.fdiv t.regs[d].toInt (2 ^ (v.toNat % 32)) ∧
      Settles s { t with regs := t.regs.set d r, flags := nzzFlags t.flags r } .ok (exec (.shr e (.reg d) b) s))

/-! ## What the ten register-destination instructions share (40_cycle.md) -/

/-- MOV, ADD .. SHR with an ill-formed shape (R98, R99; the spec's decisions D11, D13, D14, D27): a destination that is no
register is ARG_NOT_REG, a source without a value is UNDEFINED, and either under a false predicate is UNDEFINED. -/
def Obligations.RegisterDestinationShapeErrors : Prop :=
  ∀ (s : State) (t : Task) (i : Instr), isRegDest i = true → s.currentTask = some t →
    ((∀ d, i.arg1 ≠ .reg d) → t.flags.holds i.ext = true → Settles s t .argNotReg (exec i s)) ∧
    ((∀ d, i.arg1 ≠ .reg d) → t.flags.holds i.ext = false → exec i s = .fault .shapeUnderFalsePredicate) ∧
    (∀ d, i.arg1 = .reg d → argIsNone i.arg2 = true →
      exec i s = .fault (if t.flags.holds i.ext then .noneOperand else .shapeUnderFalsePredicate))

/-! ## PUSH and POP (42_stack.md) -/

/-- PUSH of a literal or of one register (R108), predicate true, with room: the value goes to `DS[sp]`, sp is one more,
and nothing else changes. -/
def Obligations.PushOneValue : Prop :=
  ∀ (s : State) (t : Task) (e : Ext) (a b : Arg) (v : Word),
    s.currentTask = some t → t.flags.holds e = true → argValue t a = some v → argIsNone b = true →
    t.sp < t.ds.length →
    ∃ t', Settles s t' .ok (exec (.push e a b) s) ∧ PushedEntries t t' 1 (fun _ => v)

/-- PUSH of a range (R108), predicate true, with room: the registers Rlo .. Rhi go to the stack in ascending order, and
nothing else changes. -/
def Obligations.PushRange : Prop :=
  ∀ (s : State) (t : Task) (e : Ext) (lo hi : RegNum),
    s.currentTask = some t → t.flags.holds e = true → lo < hi → t.sp + (hi.val - lo.val + 1) ≤ t.ds.length →
    ∃ t', Settles s t' .ok (exec (.push e (.reg lo) (.reg hi)) s) ∧
      PushedEntries t t' (hi.val - lo.val + 1) (fun k => t.readReg (Fin.ofNat 16 (lo.val + k)))

/-- PUSH that does not push (R108; the spec's decisions D11, D12, D15, D16): no room is STK_OVERFLOW with nothing written;
a range with Rlo at or above Rhi is PUSH_ARG_BAD_ORDER; another form is UNDEFINED, and so is either under a false
predicate. -/
def Obligations.PushErrors : Prop :=
  ∀ (s : State) (t : Task) (e : Ext), s.currentTask = some t →
    (∀ a b v, argValue t a = some v → argIsNone b = true → t.ds.length ≤ t.sp → t.flags.holds e = true →
      Settles s t .stkOverflow (exec (.push e a b) s)) ∧
    (∀ lo hi : RegNum, lo < hi → t.ds.length < t.sp + (hi.val - lo.val + 1) → t.flags.holds e = true →
      Settles s t .stkOverflow (exec (.push e (.reg lo) (.reg hi)) s)) ∧
    (∀ lo hi : RegNum, hi ≤ lo → t.flags.holds e = true →
      Settles s t .pushArgBadOrder (exec (.push e (.reg lo) (.reg hi)) s)) ∧
    (∀ lo hi : RegNum, hi ≤ lo → t.flags.holds e = false →
      exec (.push e (.reg lo) (.reg hi)) s = .fault .shapeUnderFalsePredicate) ∧
    (∀ a b, ¬ pushAccepts a b → (∀ lo hi, ¬ (a = .reg lo ∧ b = .reg hi)) →
      exec (.push e a b) s =
        .fault (if t.flags.holds e then .badStackForm else .shapeUnderFalsePredicate))

/-- POP of one register (R109, R110), predicate true, with an entry: Rd gets `DS[sp - 1]` and sp is one less; the entry
stays, and the flags change only where the parameter POP_SETS_NZZ says so (R111, D10). -/
def Obligations.PopOneRegister : Prop :=
  ∀ (s : State) (t : Task) (e : Ext) (d : RegNum) (b : Arg) (v : Word),
    s.currentTask = some t → t.flags.holds e = true → argIsNone b = true →
    0 < t.sp → t.ds[t.sp - 1]? = some v →
    Settles s { t with
      regs := t.regs.set d v, sp := t.sp - 1,
      flags := if s.params.popSetsNzz then nzzFlags t.flags v else t.flags } .ok (exec (.pop e (.reg d) b) s)

/-- POP of a range (R109), predicate true, with enough entries: Rhi gets the top entry and Rlo the lowest one popped; the
other registers, both stacks' buffers and the rest of the task stay; with POP_SETS_NZZ false (R111, D10) all flags stay,
and with it true the six comparison flags stay, NZ is set if a popped entry is not 0, Z if one is 0, and neither is
cleared. -/
def Obligations.PopRange : Prop :=
  ∀ (s : State) (t : Task) (e : Ext) (lo hi : RegNum),
    s.currentTask = some t → t.flags.holds e = true → lo < hi → hi.val - lo.val + 1 ≤ t.sp →
    t.sp ≤ t.ds.length →
    ∃ t', Settles s t' .ok (exec (.pop e (.reg lo) (.reg hi)) s) ∧ t'.sp = t.sp - (hi.val - lo.val + 1) ∧
      (∀ r, lo ≤ r → r ≤ hi → t.ds[t.sp - (hi.val - lo.val + 1) + (r.val - lo.val)]? = some (t'.readReg r)) ∧
      (∀ r, r < lo ∨ hi < r → t'.readReg r = t.readReg r) ∧ t'.ds = t.ds ∧ t'.cs = t.cs ∧ t'.rpc = t.rpc ∧
      t'.pc = t.pc ∧ t'.handle = t.handle ∧ (s.params.popSetsNzz = false → t'.flags = t.flags) ∧
      (s.params.popSetsNzz = true →
        t'.flags = { t.flags with nz := t'.flags.nz, z := t'.flags.z } ∧
        (t'.flags.nz = true ↔ t.flags.nz = true ∨
          ∃ k v, t.sp - (hi.val - lo.val + 1) ≤ k ∧ k < t.sp ∧ t.ds[k]? = some v ∧ v ≠ 0) ∧
        (t'.flags.z = true ↔ t.flags.z = true ∨
          ∃ k v, t.sp - (hi.val - lo.val + 1) ≤ k ∧ k < t.sp ∧ t.ds[k]? = some v ∧ v = 0))

/-- POP that does not pop (R109; the spec's decisions D11, D12, D15, D16): too few entries is STK_UNDERFLOW with nothing
written; a range with Rlo at or above Rhi and every other form are UNDEFINED. -/
def Obligations.PopErrors : Prop :=
  ∀ (s : State) (t : Task) (e : Ext), s.currentTask = some t →
    (∀ d b, argIsNone b = true → t.sp = 0 → t.flags.holds e = true →
      Settles s t .stkUnderflow (exec (.pop e (.reg d) b) s)) ∧
    (∀ lo hi : RegNum, lo < hi → t.sp < hi.val - lo.val + 1 → t.flags.holds e = true →
      Settles s t .stkUnderflow (exec (.pop e (.reg lo) (.reg hi)) s)) ∧
    (∀ lo hi : RegNum, hi ≤ lo → exec (.pop e (.reg lo) (.reg hi)) s =
      .fault (if t.flags.holds e then .popBadOrder else .shapeUnderFalsePredicate)) ∧
    (∀ a b, ¬ popAccepts a b → (∀ lo hi, ¬ (a = .reg lo ∧ b = .reg hi)) →
      exec (.pop e a b) s = .fault (if t.flags.holds e then .badStackForm else .shapeUnderFalsePredicate))

/-- R112: a PUSH of Rlo .. Rhi that returns OK with its predicate true, then anything that leaves sp as it found it and
does not change the pushed entries, then POP of Rlo .. Rhi: the POP completes and the registers hold what they held before
the PUSH. -/
def Obligations.PushThenPopRestoresRegisters : Prop :=
  ∀ (s s1 s2 : State) (t t1 t2 : Task) (e e' : Ext) (lo hi : RegNum),
    s.currentTask = some t → t.flags.holds e = true → lo < hi →
    exec (.push e (.reg lo) (.reg hi)) s = .next s1 → s1.reply.code = .ok → s1.currentTask = some t1 →
    s2.currentTask = some t2 → t2.flags.holds e' = true → t2.sp = t1.sp →
    (∀ k, t.sp ≤ k → k ≤ t.sp + (hi.val - lo.val) → t2.ds[k]? = t1.ds[k]?) →
    ∃ s3 t3, exec (.pop e' (.reg lo) (.reg hi)) s2 = .next s3 ∧ s3.reply.code = .ok ∧
      s3.currentTask = some t3 ∧ t3.sp = t.sp ∧ ∀ r, lo ≤ r → r ≤ hi → t3.readReg r = t.readReg r

/-! ## CMP and CLF (45_compare_flags.md) -/

/-- CMP (R124), predicate true and both values present: each of the six flags is set if its signed relation holds and
otherwise keeps its value; NZ, Z and everything else stay. -/
def Obligations.CmpSetsTheRelationsThatHold : Prop :=
  ∀ (s : State) (t : Task) (e : Ext) (a b : Arg) (v w : Word),
    s.currentTask = some t → t.flags.holds e = true → argValue t a = some v → argValue t b = some w →
    ∃ f : Flags, Settles s { t with flags := f } .ok (exec (.cmp e a b) s) ∧
      (f.eq = true ↔ t.flags.eq = true ∨ v = w) ∧ (f.ne = true ↔ t.flags.ne = true ∨ v ≠ w) ∧
      (f.lt = true ↔ t.flags.lt = true ∨ v.toInt < w.toInt) ∧
      (f.le = true ↔ t.flags.le = true ∨ v.toInt ≤ w.toInt) ∧
      (f.gt = true ↔ t.flags.gt = true ∨ w.toInt < v.toInt) ∧
      (f.ge = true ↔ t.flags.ge = true ∨ w.toInt ≤ v.toInt) ∧ f.nz = t.flags.nz ∧ f.z = t.flags.z

/-- CLF (R125), whatever the flags and arguments: `ext` 0 and 9 .. 255 clear all eight flags, 1 .. 8 clear exactly that
one; nothing else changes. -/
def Obligations.ClfClearsTheSelectedFlags : Prop :=
  ∀ (s : State) (t : Task) (a b : Arg), s.currentTask = some t →
    (∀ e, (∀ g, e ≠ .flag g) →
      Settles s { t with flags := ⟨false, false, false, false, false, false, false, false⟩ } .ok
        (exec (.clf e a b) s)) ∧
    (∀ g, ∃ f : Flags, Settles s { t with flags := f } .ok (exec (.clf (.flag g) a b) s) ∧
      f.get g = false ∧ ∀ g', g' ≠ g → f.get g' = t.flags.get g')

/-! ## JMP, INV, RET (46_control.md) -/

/-- JMP (R127), predicate true, 0 ≤ target < CODE_SIZE: pc gets the target and nothing else changes. -/
def Obligations.JmpSetsPc : Prop :=
  ∀ (s : State) (t : Task) (e : Ext) (a b : Arg) (v : Word),
    s.currentTask = some t → t.flags.holds e = true → argValue t a = some v →
    0 ≤ v.toInt → v.toInt < s.codeSize → Settles s { t with pc := v } .ok (exec (.jmp e a b) s)

/-- INV (R128), predicate true, room on the call stack, 0 ≤ target < CODE_SIZE: the next instruction's index goes to
`CS[rpc]`, rpc is one more, pc gets the target, and nothing else changes. -/
def Obligations.InvPushesAndBranches : Prop :=
  ∀ (s : State) (t : Task) (e : Ext) (a b : Arg) (v : Word),
    s.currentTask = some t → t.flags.holds e = true → argValue t a = some v →
    t.rpc < t.cs.length → 0 ≤ v.toInt → v.toInt < s.codeSize →
    ∃ cs : List Word, cs[t.rpc]? = some t.pc ∧ (∀ k, k ≠ t.rpc → cs[k]? = t.cs[k]?) ∧
      Settles s { t with pc := v, rpc := t.rpc + 1, cs := cs } .ok (exec (.inv e a b) s)

/-- JMP and INV that do not branch (R126 to R128; the spec's decisions D12, D17, D35), predicate true: a target at or past
CODE_SIZE is JMP_OVERFLOW, INV's pushed entry staying; a negative one is UNDEFINED; a full call stack is
CALL_STK_OVERFLOW with nothing written. -/
def Obligations.BranchErrors : Prop :=
  ∀ (s : State) (t : Task) (e : Ext) (a b : Arg) (v : Word),
    s.currentTask = some t → t.flags.holds e = true → argValue t a = some v →
    ((s.codeSize : Int) ≤ v.toInt → Settles s t .jmpOverflow (exec (.jmp e a b) s)) ∧
    (v.toInt < 0 → exec (.jmp e a b) s = .fault .negativeTarget) ∧
    (t.rpc = t.cs.length → Settles s t .callStkOverflow (exec (.inv e a b) s)) ∧
    (t.rpc < t.cs.length → (s.codeSize : Int) ≤ v.toInt →
      Settles s { t with rpc := t.rpc + 1, cs := t.cs.set t.rpc t.pc } .jmpOverflow (exec (.inv e a b) s)) ∧
    (t.rpc < t.cs.length → v.toInt < 0 → exec (.inv e a b) s = .fault .negativeTarget)

/-- R129: RET, whatever its extension, arguments and the flags: with an entry on the call stack pc gets the top one and
rpc is one less; with none it is CALL_STK_UNDERFLOW; nothing else changes. -/
def Obligations.RetPopsPc : Prop :=
  ∀ (s : State) (t : Task) (e : Ext) (a b : Arg), s.currentTask = some t →
    (t.rpc = 0 → Settles s t .callStkUnderflow (exec (.ret e a b) s)) ∧
    (∀ v, 0 < t.rpc → t.cs[t.rpc - 1]? = some v →
      Settles s { t with pc := v, rpc := t.rpc - 1 } .ok (exec (.ret e a b) s))

/-! ## SYS (47_syscall.md) -/

/-- SYS (R131, R132; the spec's decisions D8 and D25), predicate true, a handler installed: the host context and the
current task's registers become the handler's answer to the context, the registers and the number, whatever it is; nothing
else changes but the model's count of draws (log entry 6). -/
def Obligations.SysTakesTheHandlersAnswer : Prop :=
  ∀ (s : State) (t : Task) (e : Ext) (a b : Arg) (v : Word) (h : Handler),
    s.currentTask = some t → t.flags.holds e = true → argValue t a = some v → s.handler = some h →
    ∃ s', exec (.sys e a b) s = .next s' ∧ OthersUnchanged s s' ∧ s'.running = s.running ∧
      s'.reply = { code := .ok, handle := none } ∧ s'.draws = s.draws + 1 ∧
      s'.hostCtx = (Config.syscall h s.hostCtx t.regs v s.draws).1 ∧
      s'.currentTask = some { t with regs := (Config.syscall h s.hostCtx t.regs v s.draws).2 }

/-! ## What the gated instructions share -/

/-- A gated instruction with the predicate false and well-formed arguments (R93, R96, R100; the spec's decisions D8, D9 and
D12): END, PUSH, POP, CMP, JMP, INV and SYS return OK and change nothing, whatever the stacks, the values and the handler;
MOV and ADD .. SHR return OK, write no register, and the flags follow the parameter NZZ_ON_SUPPRESSED. -/
def Obligations.SuppressedInstructionsHaveNoEffect : Prop :=
  ∀ (s : State) (t : Task), s.currentTask = some t →
    (∀ e a b, t.flags.holds e = false →
      Settles s t .ok (exec (.endVm e a b) s) ∧
      (pushAccepts a b → Settles s t .ok (exec (.push e a b) s)) ∧
      (popAccepts a b → Settles s t .ok (exec (.pop e a b) s)) ∧
      (argIsNone a = false → argIsNone b = false → Settles s t .ok (exec (.cmp e a b) s)) ∧
      (argIsNone a = false → Settles s t .ok (exec (.jmp e a b) s) ∧ Settles s t .ok (exec (.inv e a b) s) ∧
        Settles s t .ok (exec (.sys e a b) s))) ∧
    ∀ (i : Instr) (d : RegNum) (v : Word), isRegDest i = true → t.flags.holds i.ext = false →
      i.arg1 = .reg d → argValue t i.arg2 = some v →
      Settles s { t with flags := if s.params.nzzOnSuppressed then nzzFlags t.flags t.regs[d] else t.flags } .ok
        (exec i s)

/-- CMP, JMP, INV and SYS without a value they need, and SYS without a handler (R99, R131; the spec's decisions D11, D14,
D24): UNDEFINED. -/
def Obligations.MissingValueOrHandlerIsUndefined : Prop :=
  ∀ (s : State) (t : Task) (e : Ext) (a b : Arg), s.currentTask = some t →
    (argIsNone a = true ∨ argIsNone b = true → exec (.cmp e a b) s =
      .fault (if t.flags.holds e then .noneOperand else .shapeUnderFalsePredicate)) ∧
    (argIsNone a = true → ∀ i, i = .jmp e a b ∨ i = .inv e a b ∨ i = .sys e a b → exec i s =
      .fault (if t.flags.holds e then .noneOperand else .shapeUnderFalsePredicate)) ∧
    (argIsNone a = false → t.flags.holds e = true → s.handler = none →
      exec (.sys e a b) s = .fault .noSyscallHandler)

/-! ## Whole-machine rules, over every instruction -/

/-- A cycle changes nothing of the VM but RUNNING, the host context, the current task's record and the result: no other
task, no ring order, not CUR, TSB, the image, the handler or the parameters (R17, R30, R50, R151). -/
def Obligations.CycleLeavesOthersUnchanged : Prop :=
  ∀ (s s' : State), s.cycleIsNext → step s = .next s' → OthersUnchanged s s'

/-- R52: no cycle writes a byte of the code image; only PUSH writes a data stack and only INV a call stack, and only the
current task's. -/
def Obligations.OnlyPushAndInvWriteMemory : Prop :=
  ∀ (s s' : State), s.cycleIsNext → step s = .next s' →
    (∀ a, s'.readByte a = s.readByte a) ∧
    ∀ h t t', s.task h = some t → s'.task h = some t' →
      (t'.ds ≠ t.ds → s.cur = some h ∧ ∃ e a b, s.fetches t (.push e a b)) ∧
      (t'.cs ≠ t.cs → s.cur = some h ∧ ∃ e a b, s.fetches t (.inv e a b))

/-- R27: flags are sticky: over any cycle that does not execute CLF, a flag of any task that is true stays true. -/
def Obligations.FlagsAreSticky : Prop :=
  ∀ (s s' : State), s.cycleIsNext → step s = .next s' → (∀ t e a b, ¬ s.fetches t (.clf e a b)) →
    ∀ h t t', s.task h = some t → s'.task h = some t' → ∀ g, t.flags.get g = true → t'.flags.get g = true

/-- Which instruction writes which flags of the current task (R26, R95, R111): the six comparison flags CMP and CLF only;
NZ and Z the ten register-destination instructions and CLF, and POP where POP_SETS_NZZ is true. -/
def Obligations.FlagsAreWrittenOnlyAsStated : Prop :=
  ∀ (s s' : State) (t t' : Task) (i : Instr), s.cycleIsNext → s.fetches t i → step s = .next s' →
    s'.currentTask = some t' →
    ((∀ e a b, i ≠ .cmp e a b) → (∀ e a b, i ≠ .clf e a b) →
      t'.flags = { t.flags with nz := t'.flags.nz, z := t'.flags.z }) ∧
    (isRegDest i = false → (∀ e a b, i ≠ .clf e a b) → (∀ e a b, i = .pop e a b → s.params.popSetsNzz = false) →
      t'.flags.nz = t.flags.nz ∧ t'.flags.z = t.flags.z)

/-- R138, R106: only an END whose predicate holds, which returns OK, and CODE_OVERFLOW change RUNNING, and both clear it;
after any other error RUNNING stays and pc stands at the instruction after the failed one. That the predicate gates END is
the spec's decision D8 (log entry 18). -/
def Obligations.OnlyEndAndCodeOverflowChangeRunning : Prop :=
  ∀ (s s' : State), s.cycleIsNext → step s = .next s' →
    (s'.running ≠ s.running → s.running = true ∧ (s'.reply.code = .codeOverflow ∨
      (s'.reply.code = .ok ∧ ∃ t e a b, s.fetches t (.endVm e a b) ∧ t.flags.holds e = true))) ∧
    (∀ t w rest, s.running = true → s.currentTask = some t → s.fetchWords t.pc.toNat = w :: rest →
      s'.reply.code ≠ .ok → s'.running = true ∧
      ∃ t', s'.currentTask = some t' ∧ t'.pc = t.pc + BitVec.ofNat 32 (1 + literalCount w))

/-- R101: after a cycle that returns an error other than NOT_RUNNING and CODE_OVERFLOW the current task is as it was but
for pc, now past the instruction word and its literals, and but for the entry that INV pushed before JMP_OVERFLOW; RUNNING
and everything else are unchanged. -/
def Obligations.ErrorsLeaveTheTaskAsItWas : Prop :=
  ∀ (s s' : State) (t : Task), s.cycleIsNext → s.running = true → s.currentTask = some t → step s = .next s' →
    s'.reply.code ≠ .ok → s'.reply.code ≠ .codeOverflow →
    OthersUnchanged s s' ∧ s'.running = s.running ∧ s'.hostCtx = s.hostCtx ∧
    ∃ w rest pc', s.fetchWords t.pc.toNat = w :: rest ∧ pc' = t.pc + BitVec.ofNat 32 (1 + literalCount w) ∧
      (s'.currentTask = some { t with pc := pc' } ∨
       (s'.reply.code = .jmpOverflow ∧ byteOf w 0 = 17 ∧
        s'.currentTask = some { t with pc := pc', rpc := t.rpc + 1, cs := t.cs.set t.rpc pc' }))

/-- Where pc and the depth of the call stack are after a cycle (R22, R102, R130): after an OK result pc is at the target
after a JMP or INV whose predicate holds, at the popped entry after RET, and past the instruction's words after everything
else; a successful INV whose predicate holds raises rpc by one, a successful RET lowers it by one, and no other instruction
changes it. -/
def Obligations.PcAndCallDepthAfterACycle : Prop :=
  ∀ (s s' : State) (t t' : Task) (i : Instr), s.cycleIsNext → s.fetches t i → step s = .next s' →
    s'.currentTask = some t' →
    (s'.reply.code = .ok →
      (∀ e a b, i = .jmp e a b ∨ i = .inv e a b → t.flags.holds e = true → argValue t a = some t'.pc) ∧
      (∀ e a b, i = .jmp e a b ∨ i = .inv e a b → t.flags.holds e = false →
        t'.pc = t.pc + BitVec.ofNat 32 i.length) ∧
      (∀ e a b v, i = .ret e a b → t.cs[t.rpc - 1]? = some v → t'.pc = v) ∧
      ((∀ e a b, i ≠ .jmp e a b ∧ i ≠ .inv e a b ∧ i ≠ .ret e a b) → t'.pc = t.pc + BitVec.ofNat 32 i.length) ∧
      (∀ e a b, i = .inv e a b → t.flags.holds e = true → t'.rpc = t.rpc + 1) ∧
      (∀ e a b, i = .ret e a b → t'.rpc + 1 = t.rpc)) ∧
    ((∀ e a b, i ≠ .inv e a b ∧ i ≠ .ret e a b) → t'.rpc = t.rpc)

/-- An instruction whose predicate is false, other than CLF and RET, that answers at all returns OK and moves pc past its
word and its literals; registers, stacks, RUNNING and every other task stay, and so do the flags, but that with
NZZ_ON_SUPPRESSED true a register-destination instruction sets NZ or Z by its unchanged destination (R90, R93, R96, R169;
the spec's decisions D8 and D9). -/
def Obligations.SuppressedInstructionConsumesItsLiterals : Prop :=
  ∀ (s s' : State) (t : Task) (i : Instr), s.cycleIsNext → s.fetches t i → t.flags.holds i.ext = false →
    (∀ e a b, i ≠ .clf e a b ∧ i ≠ .ret e a b) → step s = .next s' →
    OthersUnchanged s s' ∧ s'.running = s.running ∧ s'.hostCtx = s.hostCtx ∧ s'.reply.code = .ok ∧
    ∃ f, s'.currentTask = some { t with pc := t.pc + BitVec.ofNat 32 i.length, flags := f } ∧
      (s.params.nzzOnSuppressed = false ∨ isRegDest i = false → f = t.flags) ∧
      (s.params.nzzOnSuppressed = true → isRegDest i = true →
        ∃ d, i.arg1 = .reg d ∧ f = nzzFlags t.flags t.regs[d])

/-- No task can observe another (R55, R17, R156): two states that differ only in tasks that are not current have the same
outcome of a cycle, and the next states again differ only there. -/
def Obligations.CycleIsBlindToOtherTasks : Prop :=
  ∀ (s1 s2 : State), s2 = { s1 with ring := s2.ring } → s1.currentTask = s2.currentTask →
    (∀ r, cycle s1 = .fault r → cycle s2 = .fault r) ∧
    (∀ a, cycle s1 = .next a → ∃ b, cycle s2 = .next b ∧ b = { a with ring := b.ring } ∧
      a.currentTask = b.currentTask)

/-! ## Invariants -/

/-- The state after reset meets the invariant. -/
def Obligations.ResetMeetsTheInvariant : Prop := State.reset.Inv

/-- Every step from a state that meets the invariant, a cycle or any operation of the host, leads to one that meets it:
handles name one task each, sp and rpc stay within their stacks, the image stays in canonical form and within the hardware's
size, and a current task is always in the ring while an image is loaded (R38, R39, R42, R165). -/
def Obligations.StepKeepsTheInvariant : Prop :=
  ∀ (s s' : State), s.Inv → step s = .next s' → s'.Inv

/-- 0 ≤ pc ≤ CODE_SIZE (R24, R42, R126, R128): while only cycles run, the pc of every task and every return address on its
call stack stay at most CODE_SIZE, so pc never wraps. -/
def Obligations.CycleKeepsPcsWithinTheCode : Prop :=
  ∀ (s s' : State), s.Inv → (∀ t ∈ s.ring, t.pcsInBounds s.codeSize) → s.cycleIsNext → step s = .next s' →
    ∀ t ∈ s'.ring, t.pcsInBounds s'.codeSize
end

