-- ==== Sys2Proof/Laws/Decode.lean ====
section
/-! SUPPORT. For the parts of the decoder, what each can answer, said once: extensions, arguments, opcodes, and the whole
instruction. -/

namespace Sys2Proof

open Sys2Proof.Machine

/-- An extension byte is kept by decoding it. -/
theorem decodeExt_inv : ∀ b : Byte, (decodeExt b).code = b ∧ (decodeExt b).wellFormed = true := by decide

/-- The extension of a well-formed extension's byte is that extension. -/
theorem decodeExt_code (e : Ext) (h : e.wellFormed = true) : decodeExt e.code = e := by
  cases e with
  | none => rfl
  | flag f => cases f <;> rfl
  | reserved c =>
    simp only [Ext.wellFormed, decide_eq_true_eq] at h
    simp only [Ext.code, decodeExt]
    split <;> first | omega | rfl

/-- Every argument the decoder answers is well formed, and its byte and its literals are what was read. -/
theorem decodeArg_inv {b : Byte} {rest rest' : List Word} {a : Arg} (h : decodeArg b rest = .ok (a, rest')) :
    a.code = b ∧ a.wellFormed = true ∧ rest = a.literals ++ rest' := by
  unfold decodeArg at h
  split at h
  · cases h
    exact ⟨BitVec.eq_of_toNat_eq (by simp_all [Arg.code]), rfl, rfl⟩
  · split at h
    · cases h
      refine ⟨BitVec.eq_of_toNat_eq ?_, rfl, rfl⟩
      simp only [Arg.code, Fin.ofNat, BitVec.toNat_ofNat]
      omega
    · split at h
      · split at h
        · cases h
        · cases h
          exact ⟨BitVec.eq_of_toNat_eq (by simp_all [Arg.code]), rfl, rfl⟩
      · cases h
        exact ⟨rfl, by simp only [Arg.wellFormed, decide_eq_true_eq]; omega, rfl⟩

/-- An argument byte of 17 has one literal, every other none. -/
theorem decodeArg_literals {b : Byte} {rest rest' : List Word} {a : Arg} (h : decodeArg b rest = .ok (a, rest')) :
    a.literals.length = if b = 17 then 1 else 0 := by
  obtain ⟨rfl, hw, _⟩ := decodeArg_inv h
  cases a with
  | none => rfl
  | reg r => exact (if_neg ((by decide : ∀ r : RegNum, (Arg.reg r).code ≠ 17) r)).symm
  | imm l => rfl
  | reserved c =>
    simp only [Arg.wellFormed, decide_eq_true_eq] at hw
    refine (if_neg ?_).symm
    rintro rfl
    exact absurd hw (by decide)

/-- The opcode byte 20 .. 255 selects no instruction. -/
theorem instrOf_none {op : Byte} {e : Ext} {a b : Arg} : instrOf op e a b = none ↔ 20 ≤ op.toNat := by
  constructor
  · intro h
    unfold instrOf at h
    split at h <;> cases h
    simp only [imp_false] at *
    omega
  · intro h
    unfold instrOf
    split <;> first | rfl | omega

/-- An instruction has the opcode and the fields it was selected by. -/
theorem instrOf_inv {op : Byte} {e : Ext} {a b : Arg} {i : Instr} (h : instrOf op e a b = some i) :
    i.opcode = op ∧ i.ext = e ∧ i.arg1 = a ∧ i.arg2 = b := by
  unfold instrOf at h
  split at h <;> cases h
  all_goals exact ⟨BitVec.eq_of_toNat_eq (by simp_all [Instr.opcode]), rfl, rfl, rfl⟩

/-- Everything a decoded instruction says about its word and the words after it. -/
theorem decode_ok {ws rest : List Word} {i : Instr} (h : decode ws = .ok (i, rest)) :
    ∃ w, ws = w :: (i.arg1.literals ++ i.arg2.literals ++ rest) ∧ i.opcode = byteOf w 0 ∧
      i.ext = decodeExt (byteOf w 1) ∧ i.arg1.code = byteOf w 2 ∧ i.arg2.code = byteOf w 3 ∧
      i.length = 1 + literalCount w := by
  unfold decode at h
  split at h
  · cases h
  · rename_i w tail
    split at h
    · cases h
    · rename_i a rest1 ha
      split at h
      · cases h
      · rename_i b rest2 hb
        split at h
        · cases h
        · rename_i i' hi
          cases h
          obtain ⟨h1, h2, h3, h4⟩ := instrOf_inv hi
          obtain ⟨a1, _, a3⟩ := decodeArg_inv ha
          obtain ⟨b1, _, b3⟩ := decodeArg_inv hb
          refine ⟨w, by rw [h3, h4, a3, b3, List.append_assoc], h1, h2, by rw [h3, a1], by rw [h4, b1], ?_⟩
          simp only [Instr.length, literalCount, h3, h4, decodeArg_literals ha, decodeArg_literals hb]
          omega

/-- Everything the report of an unknown opcode says about its word. -/
theorem decode_unknown {ws : List Word} {op : Byte} {n : Nat} (h : decode ws = .error (.unknownOpcode op n)) :
    ∃ w rest, ws = w :: rest ∧ op = byteOf w 0 ∧ 20 ≤ op.toNat ∧ n = literalCount w ∧ literalCount w ≤ rest.length := by
  unfold decode at h
  split at h
  · cases h
  · rename_i w tail
    split at h
    · rename_i x hx
      unfold decodeArg at hx
      repeat' split at hx
      all_goals cases hx
      cases h
    · rename_i a rest1 ha
      split at h
      · rename_i x hx
        unfold decodeArg at hx
        repeat' split at hx
        all_goals cases hx
        cases h
      · rename_i b rest2 hb
        split at h
        · rename_i hi
          cases h
          have ha' := decodeArg_literals ha
          have hb' := decodeArg_literals hb
          obtain ⟨_, _, a3⟩ := decodeArg_inv ha
          obtain ⟨_, _, b3⟩ := decodeArg_inv hb
          refine ⟨w, tail, rfl, rfl, instrOf_none.mp hi, by rw [ha', hb']; rfl, ?_⟩
          rw [a3, b3]
          simp only [List.length_append, ha', hb', literalCount]
          omega
        · cases h

end Sys2Proof
end

