-- ==== Sys2Proof/Laws/State.lean ====
section
/-! SUPPORT. One lemma per field per named update of the state and of a task, each true by unfolding the update, so that
no later proof unfolds one. -/

namespace Sys2Proof.Machine

/-! ## State.putTask -/

@[simp] theorem State.putTask_running (s : State) (t : Task) : (s.putTask t).running = s.running := rfl

@[simp] theorem State.putTask_tsb (s : State) (t : Task) : (s.putTask t).tsb = s.tsb := rfl

@[simp] theorem State.putTask_code (s : State) (t : Task) : (s.putTask t).code = s.code := rfl

@[simp] theorem State.putTask_ring (s : State) (t : Task) : (s.putTask t).ring = putInRing t s.ring := rfl

@[simp] theorem State.putTask_cur (s : State) (t : Task) : (s.putTask t).cur = s.cur := rfl

@[simp] theorem State.putTask_hostCtx (s : State) (t : Task) : (s.putTask t).hostCtx = s.hostCtx := rfl

@[simp] theorem State.putTask_handler (s : State) (t : Task) : (s.putTask t).handler = s.handler := rfl

@[simp] theorem State.putTask_fault (s : State) (t : Task) : (s.putTask t).fault = s.fault := rfl

@[simp] theorem State.putTask_params (s : State) (t : Task) : (s.putTask t).params = s.params := rfl

@[simp] theorem State.putTask_reply (s : State) (t : Task) : (s.putTask t).reply = s.reply := rfl

@[simp] theorem State.putTask_calls (s : State) (t : Task) : (s.putTask t).calls = s.calls := rfl

@[simp] theorem State.putTask_draws (s : State) (t : Task) : (s.putTask t).draws = s.draws := rfl

/-! ## State.answer -/

@[simp] theorem State.answer_running (s : State) (c : ResultCode) : (s.answer c).running = s.running := rfl

@[simp] theorem State.answer_tsb (s : State) (c : ResultCode) : (s.answer c).tsb = s.tsb := rfl

@[simp] theorem State.answer_code (s : State) (c : ResultCode) : (s.answer c).code = s.code := rfl

@[simp] theorem State.answer_ring (s : State) (c : ResultCode) : (s.answer c).ring = s.ring := rfl

@[simp] theorem State.answer_cur (s : State) (c : ResultCode) : (s.answer c).cur = s.cur := rfl

@[simp] theorem State.answer_hostCtx (s : State) (c : ResultCode) : (s.answer c).hostCtx = s.hostCtx := rfl

@[simp] theorem State.answer_handler (s : State) (c : ResultCode) : (s.answer c).handler = s.handler := rfl

@[simp] theorem State.answer_fault (s : State) (c : ResultCode) : (s.answer c).fault = s.fault := rfl

@[simp] theorem State.answer_params (s : State) (c : ResultCode) : (s.answer c).params = s.params := rfl

@[simp] theorem State.answer_reply (s : State) (c : ResultCode) : (s.answer c).reply = { code := c, handle := none } := rfl

@[simp] theorem State.answer_calls (s : State) (c : ResultCode) : (s.answer c).calls = s.calls := rfl

@[simp] theorem State.answer_draws (s : State) (c : ResultCode) : (s.answer c).draws = s.draws := rfl

/-! ## State.latch_fault -/

@[simp] theorem State.latch_fault_running (s : State) (r : Fault) : (s.latch (.fault r)).running = s.running := rfl

@[simp] theorem State.latch_fault_tsb (s : State) (r : Fault) : (s.latch (.fault r)).tsb = s.tsb := rfl

@[simp] theorem State.latch_fault_code (s : State) (r : Fault) : (s.latch (.fault r)).code = s.code := rfl

@[simp] theorem State.latch_fault_ring (s : State) (r : Fault) : (s.latch (.fault r)).ring = s.ring := rfl

@[simp] theorem State.latch_fault_cur (s : State) (r : Fault) : (s.latch (.fault r)).cur = s.cur := rfl

@[simp] theorem State.latch_fault_hostCtx (s : State) (r : Fault) : (s.latch (.fault r)).hostCtx = s.hostCtx := rfl

@[simp] theorem State.latch_fault_handler (s : State) (r : Fault) : (s.latch (.fault r)).handler = s.handler := rfl

@[simp] theorem State.latch_fault_fault (s : State) (r : Fault) : (s.latch (.fault r)).fault = some r := rfl

@[simp] theorem State.latch_fault_params (s : State) (r : Fault) : (s.latch (.fault r)).params = s.params := rfl

@[simp] theorem State.latch_fault_reply (s : State) (r : Fault) : (s.latch (.fault r)).reply = s.reply := rfl

@[simp] theorem State.latch_fault_calls (s : State) (r : Fault) : (s.latch (.fault r)).calls = s.calls := rfl

@[simp] theorem State.latch_fault_draws (s : State) (r : Fault) : (s.latch (.fault r)).draws = s.draws := rfl

/-! ## Task.writeReg -/

@[simp] theorem Task.writeReg_handle (t : Task) (r : RegNum) (v : Word) : (t.writeReg r v).handle = t.handle := rfl

@[simp] theorem Task.writeReg_regs (t : Task) (r : RegNum) (v : Word) : (t.writeReg r v).regs = t.regs.set r v := rfl

@[simp] theorem Task.writeReg_flags (t : Task) (r : RegNum) (v : Word) : (t.writeReg r v).flags = t.flags := rfl

@[simp] theorem Task.writeReg_pc (t : Task) (r : RegNum) (v : Word) : (t.writeReg r v).pc = t.pc := rfl

@[simp] theorem Task.writeReg_rpc (t : Task) (r : RegNum) (v : Word) : (t.writeReg r v).rpc = t.rpc := rfl

@[simp] theorem Task.writeReg_sp (t : Task) (r : RegNum) (v : Word) : (t.writeReg r v).sp = t.sp := rfl

@[simp] theorem Task.writeReg_ds (t : Task) (r : RegNum) (v : Word) : (t.writeReg r v).ds = t.ds := rfl

@[simp] theorem Task.writeReg_cs (t : Task) (r : RegNum) (v : Word) : (t.writeReg r v).cs = t.cs := rfl

/-! ## Task.setNZZ -/

@[simp] theorem Task.setNZZ_handle (t : Task) (v : Word) : (t.setNZZ v).handle = t.handle := rfl

@[simp] theorem Task.setNZZ_regs (t : Task) (v : Word) : (t.setNZZ v).regs = t.regs := rfl

@[simp] theorem Task.setNZZ_flags (t : Task) (v : Word) : (t.setNZZ v).flags = t.flags.setNZZ v := rfl

@[simp] theorem Task.setNZZ_pc (t : Task) (v : Word) : (t.setNZZ v).pc = t.pc := rfl

@[simp] theorem Task.setNZZ_rpc (t : Task) (v : Word) : (t.setNZZ v).rpc = t.rpc := rfl

@[simp] theorem Task.setNZZ_sp (t : Task) (v : Word) : (t.setNZZ v).sp = t.sp := rfl

@[simp] theorem Task.setNZZ_ds (t : Task) (v : Word) : (t.setNZZ v).ds = t.ds := rfl

@[simp] theorem Task.setNZZ_cs (t : Task) (v : Word) : (t.setNZZ v).cs = t.cs := rfl

/-! ## Task.dsPush -/

@[simp] theorem Task.dsPush_handle (t : Task) (v : Word) : (t.dsPush v).handle = t.handle := rfl

@[simp] theorem Task.dsPush_regs (t : Task) (v : Word) : (t.dsPush v).regs = t.regs := rfl

@[simp] theorem Task.dsPush_flags (t : Task) (v : Word) : (t.dsPush v).flags = t.flags := rfl

@[simp] theorem Task.dsPush_pc (t : Task) (v : Word) : (t.dsPush v).pc = t.pc := rfl

@[simp] theorem Task.dsPush_rpc (t : Task) (v : Word) : (t.dsPush v).rpc = t.rpc := rfl

@[simp] theorem Task.dsPush_sp (t : Task) (v : Word) : (t.dsPush v).sp = t.sp + 1 := rfl

@[simp] theorem Task.dsPush_ds (t : Task) (v : Word) : (t.dsPush v).ds = t.ds.set t.sp v := rfl

@[simp] theorem Task.dsPush_cs (t : Task) (v : Word) : (t.dsPush v).cs = t.cs := rfl

/-! ## Task.dsPop_task -/

@[simp] theorem Task.dsPop_task_handle (t : Task) : (t.dsPop.2).handle = t.handle := rfl

@[simp] theorem Task.dsPop_task_regs (t : Task) : (t.dsPop.2).regs = t.regs := rfl

@[simp] theorem Task.dsPop_task_flags (t : Task) : (t.dsPop.2).flags = t.flags := rfl

@[simp] theorem Task.dsPop_task_pc (t : Task) : (t.dsPop.2).pc = t.pc := rfl

@[simp] theorem Task.dsPop_task_rpc (t : Task) : (t.dsPop.2).rpc = t.rpc := rfl

@[simp] theorem Task.dsPop_task_sp (t : Task) : (t.dsPop.2).sp = t.sp - 1 := rfl

@[simp] theorem Task.dsPop_task_ds (t : Task) : (t.dsPop.2).ds = t.ds := rfl

@[simp] theorem Task.dsPop_task_cs (t : Task) : (t.dsPop.2).cs = t.cs := rfl

/-! ## Task.csPush -/

@[simp] theorem Task.csPush_handle (t : Task) (v : Word) : (t.csPush v).handle = t.handle := rfl

@[simp] theorem Task.csPush_regs (t : Task) (v : Word) : (t.csPush v).regs = t.regs := rfl

@[simp] theorem Task.csPush_flags (t : Task) (v : Word) : (t.csPush v).flags = t.flags := rfl

@[simp] theorem Task.csPush_pc (t : Task) (v : Word) : (t.csPush v).pc = t.pc := rfl

@[simp] theorem Task.csPush_rpc (t : Task) (v : Word) : (t.csPush v).rpc = t.rpc + 1 := rfl

@[simp] theorem Task.csPush_sp (t : Task) (v : Word) : (t.csPush v).sp = t.sp := rfl

@[simp] theorem Task.csPush_ds (t : Task) (v : Word) : (t.csPush v).ds = t.ds := rfl

@[simp] theorem Task.csPush_cs (t : Task) (v : Word) : (t.csPush v).cs = t.cs.set t.rpc v := rfl

/-! ## Task.csPop_task -/

@[simp] theorem Task.csPop_task_handle (t : Task) : (t.csPop.2).handle = t.handle := rfl

@[simp] theorem Task.csPop_task_regs (t : Task) : (t.csPop.2).regs = t.regs := rfl

@[simp] theorem Task.csPop_task_flags (t : Task) : (t.csPop.2).flags = t.flags := rfl

@[simp] theorem Task.csPop_task_pc (t : Task) : (t.csPop.2).pc = t.pc := rfl

@[simp] theorem Task.csPop_task_rpc (t : Task) : (t.csPop.2).rpc = t.rpc - 1 := rfl

@[simp] theorem Task.csPop_task_sp (t : Task) : (t.csPop.2).sp = t.sp := rfl

@[simp] theorem Task.csPop_task_ds (t : Task) : (t.csPop.2).ds = t.ds := rfl

@[simp] theorem Task.csPop_task_cs (t : Task) : (t.csPop.2).cs = t.cs := rfl

/-! ## Task.advance -/

@[simp] theorem Task.advance_handle (t : Task) (n : Nat) : (t.advance n).handle = t.handle := rfl

@[simp] theorem Task.advance_regs (t : Task) (n : Nat) : (t.advance n).regs = t.regs := rfl

@[simp] theorem Task.advance_flags (t : Task) (n : Nat) : (t.advance n).flags = t.flags := rfl

@[simp] theorem Task.advance_pc (t : Task) (n : Nat) : (t.advance n).pc = t.pc + BitVec.ofNat 32 n := rfl

@[simp] theorem Task.advance_rpc (t : Task) (n : Nat) : (t.advance n).rpc = t.rpc := rfl

@[simp] theorem Task.advance_sp (t : Task) (n : Nat) : (t.advance n).sp = t.sp := rfl

@[simp] theorem Task.advance_ds (t : Task) (n : Nat) : (t.advance n).ds = t.ds := rfl

@[simp] theorem Task.advance_cs (t : Task) (n : Nat) : (t.advance n).cs = t.cs := rfl

/-! ## Reset -/

@[simp] theorem State.init_running (c : HostCtx) (h : Option Handler) (p : Params) : (State.init c h p).running = false := rfl

@[simp] theorem State.init_tsb (c : HostCtx) (h : Option Handler) (p : Params) : (State.init c h p).tsb = false := rfl

@[simp] theorem State.init_code (c : HostCtx) (h : Option Handler) (p : Params) : (State.init c h p).code = none := rfl

@[simp] theorem State.init_ring (c : HostCtx) (h : Option Handler) (p : Params) : (State.init c h p).ring = [] := rfl

@[simp] theorem State.init_cur (c : HostCtx) (h : Option Handler) (p : Params) : (State.init c h p).cur = none := rfl

@[simp] theorem State.init_hostCtx (c : HostCtx) (h : Option Handler) (p : Params) : (State.init c h p).hostCtx = c := rfl

@[simp] theorem State.init_handler (c : HostCtx) (h : Option Handler) (p : Params) : (State.init c h p).handler = h := rfl

@[simp] theorem State.init_fault (c : HostCtx) (h : Option Handler) (p : Params) : (State.init c h p).fault = none := rfl

@[simp] theorem State.init_params (c : HostCtx) (h : Option Handler) (p : Params) : (State.init c h p).params = p := rfl

@[simp] theorem State.init_reply (c : HostCtx) (h : Option Handler) (p : Params) : (State.init c h p).reply = { code := .ok, handle := none } := rfl

@[simp] theorem State.init_calls (c : HostCtx) (h : Option Handler) (p : Params) : (State.init c h p).calls = [] := rfl

@[simp] theorem State.init_draws (c : HostCtx) (h : Option Handler) (p : Params) : (State.init c h p).draws = 0 := rfl

theorem State.reset_eq : State.reset = State.init [] none Config.defaultParams := rfl

end Sys2Proof.Machine
end

