-- ==== Sys2Proof/Laws/Memory.lean ====
section
/-! SUPPORT. The laws of byte memory and of the code image: reading after writing, and that every operation keeps the
canonical form. -/

namespace Sys2Proof.Machine

theorem Memory.read_cons_eq (a : Nat) (b : Byte) (m : Memory) (k : Nat) (h : ∀ c ∈ m, a < c.1) :
    Memory.read (Memory.cons a b m) k = if k = a then b else Memory.read m k := by
  have low : ∀ m : Memory, (∀ c ∈ m, a < c.1) → Memory.read m a = Memory.unlisted := by
    intro m
    induction m with
    | nil => intro _; rfl
    | cons c m ih =>
      obtain ⟨x, y⟩ := c
      intro h
      have hx : a < x := h (x, y) (by simp)
      have := ih (fun c hc => h c (by simp [hc]))
      simp only [Memory.read, this]
      rw [if_neg (by omega)]
  unfold Memory.cons
  split
  · rename_i hb
    split
    · subst_vars; exact low m h
    · rfl
  · simp only [Memory.read]
    by_cases hk : a = k
    · simp [hk]
    · simp [hk, Ne.symm hk]

theorem Memory.cons_wf (a : Nat) (b : Byte) (m : Memory) (hm : Memory.wf m) (h : ∀ c ∈ m, a < c.1) :
    Memory.wf (Memory.cons a b m) := by
  unfold Memory.cons
  split
  · exact hm
  · rename_i hb
    refine ⟨List.pairwise_cons.mpr ⟨fun c hc => h c hc, hm.1⟩, ?_⟩
    intro c hc
    rcases List.mem_cons.mp hc with rfl | hc
    · exact hb
    · exact hm.2 c hc

theorem Memory.mem_cons (a : Nat) (b : Byte) (m : Memory) (c : Host.Cell) (h : c ∈ Memory.cons a b m) :
    c = (a, b) ∨ c ∈ m := by
  unfold Memory.cons at h
  split at h
  · exact .inr h
  · exact List.mem_cons.mp h

/-- Every entry after a write stands at the written address or was there before. -/
theorem Memory.mem_write (m : Memory) (k : Nat) (v : Byte) (c : Host.Cell) (h : c ∈ Memory.write m k v) :
    c.1 = k ∨ c ∈ m := by
  induction m with
  | nil =>
    rcases Memory.mem_cons k v [] c h with rfl | h
    · exact .inl rfl
    · exact .inr h
  | cons x m ih =>
    obtain ⟨a, b⟩ := x
    simp only [Memory.write] at h
    split at h
    · rcases Memory.mem_cons _ _ _ _ h with rfl | h
      · exact .inl rfl
      · exact .inr h
    · split at h
      · rcases Memory.mem_cons _ _ _ _ h with rfl | h
        · exact .inl rfl
        · exact .inr (by simp [h])
      · rcases List.mem_cons.mp h with rfl | h
        · exact .inr (by simp)
        · rcases ih h with h | h
          · exact .inl h
          · exact .inr (by simp [h])

/-- A write keeps the canonical form. -/
theorem Memory.write_wf (m : Memory) (k : Nat) (v : Byte) (hm : Memory.wf m) : Memory.wf (Memory.write m k v) := by
  induction m with
  | nil => exact Memory.cons_wf k v [] hm (by simp)
  | cons x m ih =>
    obtain ⟨a, b⟩ := x
    have hp := List.pairwise_cons.mp hm.1
    have hm' : Memory.wf m := ⟨hp.2, fun c hc => hm.2 c (by simp [hc])⟩
    simp only [Memory.write]
    split
    · refine Memory.cons_wf _ _ _ hm ?_
      intro c hc
      rcases List.mem_cons.mp hc with rfl | hc
      · assumption
      · have := hp.1 c hc; simp at this; omega
    · split
      · subst_vars
        exact Memory.cons_wf _ _ _ hm' (fun c hc => hp.1 c hc)
      · refine ⟨List.pairwise_cons.mpr ⟨?_, (ih hm').1⟩, ?_⟩
        · intro c hc
          rcases Memory.mem_write m k v c hc with h | h
          · simp only [h]; omega
          · exact hp.1 c h
        · intro c hc
          rcases List.mem_cons.mp hc with rfl | hc
          · exact hm.2 (a, b) (by simp)
          · exact (ih hm').2 c hc

/-- Reading after a write: the written address gives the byte, every other one what it gave before. -/
theorem Memory.read_write (m : Memory) (k : Nat) (v : Byte) (a : Nat) (hm : Memory.wf m) :
    Memory.read (Memory.write m k v) a = if a = k then v else Memory.read m a := by
  induction m with
  | nil => exact Memory.read_cons_eq k v [] a (by simp)
  | cons x m ih =>
    obtain ⟨x, b⟩ := x
    have hp := List.pairwise_cons.mp hm.1
    have hm' : Memory.wf m := ⟨hp.2, fun c hc => hm.2 c (by simp [hc])⟩
    simp only [Memory.write]
    split
    · rw [Memory.read_cons_eq]
      intro c hc
      rcases List.mem_cons.mp hc with rfl | hc
      · assumption
      · have := hp.1 c hc; simp at this; omega
    · split
      · subst_vars
        rw [Memory.read_cons_eq _ _ _ _ (fun c hc => hp.1 c hc)]
        by_cases ha : a = x
        · simp [ha]
        · simp [ha, Memory.read, Ne.symm ha]
      · simp only [Memory.read, ih hm']
        by_cases ha : x = a
        · subst ha; simp; omega
        · simp [ha]

theorem Memory.mem_ofBytes (k : Nat) (bs : List Byte) (c : Host.Cell) (h : c ∈ Memory.ofBytes k bs) :
    k ≤ c.1 ∧ c.1 < k + bs.length := by
  induction bs generalizing k with
  | nil => simp [Memory.ofBytes] at h
  | cons b bs ih =>
    rcases Memory.mem_cons _ _ _ _ h with rfl | h
    · simp
    · have := ih (k + 1) h
      simp only [List.length_cons]
      omega

/-- The memory of a sequence of bytes is in canonical form. -/
theorem Memory.ofBytes_wf (k : Nat) (bs : List Byte) : Memory.wf (Memory.ofBytes k bs) := by
  induction bs generalizing k with
  | nil => exact ⟨List.Pairwise.nil, by simp [Memory.ofBytes]⟩
  | cons b bs ih =>
    exact Memory.cons_wf _ _ _ (ih (k + 1)) (fun c hc => by have := Memory.mem_ofBytes _ _ _ hc; omega)

/-- The memory of a sequence of bytes reads as the sequence. -/
theorem Memory.read_ofBytes (k : Nat) (bs : List Byte) (j : Nat) (hj : j < bs.length) :
    Memory.read (Memory.ofBytes k bs) (k + j) = bs[j] := by
  induction bs generalizing k j with
  | nil => simp at hj
  | cons b bs ih =>
    have low : ∀ c ∈ Memory.ofBytes (k + 1) bs, k < c.1 := fun c hc => by
      have := Memory.mem_ofBytes _ _ _ hc; omega
    simp only [Memory.ofBytes]
    rw [Memory.read_cons_eq k b _ _ low]
    cases j with
    | zero => simp
    | succ j =>
      have := ih (k + 1) j (by simpa using hj)
      rw [if_neg (by omega), show k + (j + 1) = k + 1 + j by omega, this]
      simp

/-- Writing a sequence of bytes keeps the canonical form. -/
theorem Memory.writeBytes_wf (m : Memory) (k : Nat) (bs : List Byte) (hm : Memory.wf m) :
    Memory.wf (Memory.writeBytes m k bs) := by
  induction bs generalizing m k with
  | nil => exact hm
  | cons b bs ih => exact ih _ _ (Memory.write_wf m k b hm)

@[simp] theorem length_bytesOfWords (ws : List Word) : (bytesOfWords ws).length = 4 * ws.length := by
  induction ws with
  | nil => rfl
  | cons w ws ih => simp only [bytesOfWords, List.length_append, ih, List.length_cons]; simp [bytesOfWord]; omega

@[simp] theorem CodeImage.ofWords_size (ws : List Word) (m : ImageMeta) : (CodeImage.ofWords ws m).size = ws.length := rfl

@[simp] theorem CodeImage.ofWords_metadata (ws : List Word) (m : ImageMeta) :
    (CodeImage.ofWords ws m).metadata = m := rfl

/-- A loaded image is one the hardware allows. -/
theorem CodeImage.ofWords_wf (ws : List Word) (m : ImageMeta) (h : ws.length ≤ Config.maxCodeSize) :
    (CodeImage.ofWords ws m).wf := by
  refine ⟨Memory.ofBytes_wf _ _, ?_, h⟩
  intro c hc
  have := Memory.mem_ofBytes _ _ _ hc
  simp at this
  simpa using this

/-- Byte `k` of word `i` of the bytecode of a sequence of words. -/
theorem getElem_bytesOfWords (ws : List Word) (i k : Nat) (hi : i < ws.length) (hk : k < 4) :
    (bytesOfWords ws)[4 * i + k]'(by simp; omega) = byteOf ws[i] k := by
  induction ws generalizing i with
  | nil => simp at hi
  | cons w ws ih =>
    have four : k = 0 ∨ k = 1 ∨ k = 2 ∨ k = 3 := by omega
    cases i with
    | zero => rcases four with rfl | rfl | rfl | rfl <;> rfl
    | succ i =>
      have := ih i (by simpa using hi)
      simp only [bytesOfWords, List.getElem_cons_succ, ← this]
      rw [List.getElem_append_right (by simp [bytesOfWord]; omega)]
      simp [bytesOfWord, show 4 * (i + 1) + k - 4 = 4 * i + k by omega]

/-- CodeRead gives nothing exactly at and past CODE_SIZE. -/
theorem CodeImage.codeRead_eq_none (img : CodeImage) (a : Nat) : img.codeRead a = none ↔ img.size ≤ a := by
  unfold CodeImage.codeRead
  split
  · simp; omega
  · simp; omega

/-- The words from an index on begin with the word there. -/
theorem CodeImage.wordsFrom_succ (img : CodeImage) (n a : Nat) :
    img.wordsFrom (n + 1) a = match img.codeRead a with
      | none => []
      | some w => w :: img.wordsFrom n (a + 1) := rfl

/-- There is no word to fetch exactly at and past CODE_SIZE. -/
theorem State.fetchWords_eq_nil (s : State) (a : Nat) : s.fetchWords a = [] ↔ s.codeSize ≤ a := by
  unfold State.fetchWords State.codeSize
  cases hc : s.code with
  | none => simp
  | some img =>
    simp only [CodeImage.wordsFrom_succ]
    cases h : img.codeRead a with
    | none => simpa using (CodeImage.codeRead_eq_none img a).mp h
    | some w =>
      have : ¬ img.size ≤ a := fun hle => by simp [(CodeImage.codeRead_eq_none img a).mpr hle] at h
      simpa using this

/-- The reset state holds no memory, which is in canonical form. -/
theorem State.reset_memory : State.reset.code = none ∧ Memory.wf [] := by decide

end Sys2Proof.Machine
end

