-- ==== Sys2Proof/Laws/Ops.lean ====
section
/-! SUPPORT. For each shared operation, what it can do, said once: tasks and the ring, the stacks, the template of the
register-destination instructions, and branches. -/

namespace Sys2Proof.Machine

/-! ## Tasks and the ring -/

/-- Looking a task up after a task record is written back. -/
theorem State.task_putTask (s : State) (t : Task) (h : Handle) :
    (s.putTask t).task h = if h = t.handle then (s.task h).map (fun _ => t) else s.task h := by
  simp only [State.task, State.putTask_ring, putInRing]
  generalize s.ring = ring
  induction ring with
  | nil => simp
  | cons u ring ih =>
    simp only [List.map_cons, List.find?_cons]
    by_cases hu : u.handle = t.handle
    · by_cases hh : h = t.handle
      · subst hh; simp [hu]
      · have h1 : (t.handle == h) = false := by simpa using Ne.symm hh
        have h2 : (u.handle == h) = false := by simpa [hu] using Ne.symm hh
        rw [if_neg hh] at ih ⊢
        simp only [if_pos hu, h1, h2]
        exact ih
    · simp only [if_neg hu]
      by_cases hh : u.handle = h
      · have : h ≠ t.handle := fun e => hu (hh.trans e)
        simp [hh, this]
      · have h2 : (u.handle == h) = false := by simpa using hh
        simp only [h2]
        exact ih

/-- A task that a lookup finds bears the handle it was looked up by. -/
theorem State.handle_of_task {s : State} {h : Handle} {t : Task} (ht : s.task h = some t) : t.handle = h := by
  have := List.find?_some ht
  simpa using this

/-- CUR names the current task. -/
theorem State.cur_of_currentTask {s : State} {t : Task} (ht : s.currentTask = some t) : s.cur = some t.handle := by
  unfold State.currentTask at ht
  split at ht
  · cases ht
  · rename_i h hc
    rw [hc, State.handle_of_task ht]

/-- The current task is the one found under its own handle. -/
theorem State.task_of_currentTask {s : State} {t : Task} (ht : s.currentTask = some t) :
    s.task t.handle = some t := by
  have hc := State.cur_of_currentTask ht
  simpa [State.currentTask, hc] using ht

/-- The current task is in the ring. -/
theorem State.mem_of_currentTask {s : State} {t : Task} (ht : s.currentTask = some t) : t ∈ s.ring :=
  List.mem_of_find?_eq_some (State.task_of_currentTask ht)

/-- After writing back a new record of the current task, that record is the current task. -/
theorem State.currentTask_putTask {s : State} {t t' : Task} (ht : s.currentTask = some t)
    (hh : t'.handle = t.handle) : (s.putTask t').currentTask = some t' := by
  have hc := State.cur_of_currentTask ht
  simp only [State.currentTask, State.putTask_cur, hc, State.task_putTask, hh, if_true]
  simp [State.task_of_currentTask ht]

@[simp] theorem State.currentTask_answer (s : State) (c : ResultCode) : (s.answer c).currentTask = s.currentTask := rfl

@[simp] theorem State.task_answer (s : State) (c : ResultCode) (h : Handle) : (s.answer c).task h = s.task h := rfl

@[simp] theorem State.codeSize_answer (s : State) (c : ResultCode) : (s.answer c).codeSize = s.codeSize := rfl

@[simp] theorem State.codeSize_putTask (s : State) (t : Task) : (s.putTask t).codeSize = s.codeSize := rfl

@[simp] theorem State.readByte_putTask (s : State) (t : Task) (a : Nat) : (s.putTask t).readByte a = s.readByte a := rfl

@[simp] theorem State.readByte_answer (s : State) (c : ResultCode) (a : Nat) :
    (s.answer c).readByte a = s.readByte a := rfl

/-- Writing a task record back keeps the handles of the ring and their order. -/
theorem handles_putInRing (t : Task) (ring : List Task) :
    (putInRing t ring).map Task.handle = ring.map Task.handle := by
  simp only [putInRing, List.map_map]
  refine List.map_congr_left fun u _ => ?_
  simp only [Function.comp]
  split <;> simp_all

/-- Writing two records of one task back, one after the other, is writing back the second. -/
theorem State.putTask_putTask (s : State) (t t' : Task) (hh : t'.handle = t.handle) :
    (s.putTask t).putTask t' = s.putTask t' := by
  simp only [State.putTask, putInRing, List.map_map]
  congr 1
  refine List.map_congr_left fun u _ => ?_
  simp only [Function.comp, hh]
  split <;> simp_all

theorem mem_putInRing {t u : Task} {ring : List Task} (h : u ∈ putInRing t ring) : u = t ∨ u ∈ ring := by
  simp only [putInRing, List.mem_map] at h
  obtain ⟨v, hv, rfl⟩ := h
  split
  · exact .inl rfl
  · exact .inr hv

/-! ## What is left unchanged -/

theorem OthersUnchanged.refl (s : State) : OthersUnchanged s s :=
  ⟨fun _ _ => rfl, rfl, rfl, rfl, rfl, rfl, rfl, rfl, rfl⟩

theorem OthersUnchanged.trans {a b c : State} (h : OthersUnchanged a b) (k : OthersUnchanged b c) :
    OthersUnchanged a c where
  tasks x hx := (k.tasks x (by rw [h.cur]; exact hx)).trans (h.tasks x hx)
  order := k.order.trans h.order
  cur := k.cur.trans h.cur
  tsb := k.tsb.trans h.tsb
  code := k.code.trans h.code
  handler := k.handler.trans h.handler
  fault := k.fault.trans h.fault
  params := k.params.trans h.params
  calls := k.calls.trans h.calls

/-- Writing back a record of the current task leaves everything else unchanged. -/
theorem OthersUnchanged.putTask {s : State} {t t' : Task} (ht : s.currentTask = some t)
    (hh : t'.handle = t.handle) : OthersUnchanged s (s.putTask t') where
  tasks x hx := by
    rw [State.task_putTask, if_neg]
    intro e
    exact hx (by rw [State.cur_of_currentTask ht, ← hh, e])
  order := handles_putInRing _ _
  cur := rfl
  tsb := rfl
  code := rfl
  handler := rfl
  fault := rfl
  params := rfl
  calls := rfl

theorem OthersUnchanged.answer (s : State) (c : ResultCode) : OthersUnchanged s (s.answer c) :=
  ⟨fun _ _ => rfl, rfl, rfl, rfl, rfl, rfl, rfl, rfl, rfl⟩

/-- `finish` ends with OK, the given record being the current task's, and nothing else changed. -/
theorem settles_finish {s : State} {t t' : Task} (ht : s.currentTask = some t) (hh : t'.handle = t.handle) :
    Settles s t' .ok (finish s t') :=
  ⟨_, rfl, by simpa using State.currentTask_putTask ht hh, rfl,
    (OthersUnchanged.putTask ht hh).trans (OthersUnchanged.answer _ _), rfl, rfl, rfl⟩

/-- `raise` ends with its code and changes nothing else. -/
theorem settles_raise {s : State} {t : Task} (ht : s.currentTask = some t) (c : ResultCode) :
    Settles s t c (raise s c) :=
  ⟨_, rfl, by simpa using ht, rfl, OthersUnchanged.answer _ _, rfl, rfl, rfl⟩

/-- A body runs on the current task. -/
theorem onCurrent_some {s : State} {t : Task} (ht : s.currentTask = some t)
    (body : Task → Host.Outcome State Fault Refusal) : onCurrent s body = body t := by
  simp [onCurrent, ht]

/-- A body that answers a next state ran on a current task. -/
theorem onCurrent_next {s s' : State} {body : Task → Host.Outcome State Fault Refusal}
    (h : onCurrent s body = .next s') : ∃ t, s.currentTask = some t ∧ body t = .next s' := by
  unfold onCurrent at h
  split at h
  · cases h
  · exact ⟨_, ‹_›, h⟩

theorem illShaped_next {p : Bool} {o : Host.Outcome State Fault Refusal} {s' : State}
    (h : illShaped p o = .next s') : p = true ∧ o = .next s' := by
  unfold illShaped at h
  split at h
  · exact ⟨‹_›, h⟩
  · cases h

/-! ## The shared shapes of instructions -/

/-- Everything Exec_regdest can do when it answers a next state. -/
theorem regDest_next {f : Word → Word → Except Fault Word} {e : Ext} {a b : Arg} {s s' : State}
    (h : regDest f e a b s = .next s') :
    ∃ t, s.currentTask = some t ∧
      ((t.flags.holds e = true ∧ argRegIndex a = none ∧ s' = s.answer .argNotReg) ∨
       (∃ d v r, t.flags.holds e = true ∧ argRegIndex a = some d ∧ argValue t b = some v ∧
          f (t.readReg d) v = .ok r ∧ s' = (s.putTask ((t.writeReg d r).setNZZ r)).answer .ok) ∨
       (∃ d v, t.flags.holds e = false ∧ argRegIndex a = some d ∧ argValue t b = some v ∧
          s' = (s.putTask (if s.params.nzzOnSuppressed then t.setNZZ (t.readReg d) else t)).answer .ok)) := by
  obtain ⟨t, ht, h⟩ := onCurrent_next h
  refine ⟨t, ht, ?_⟩
  simp only at h
  split at h
  · obtain ⟨hp, h⟩ := illShaped_next h
    cases h
    exact .inl ⟨hp, ‹_›, rfl⟩
  · rename_i d hd
    split at h
    · obtain ⟨_, h⟩ := illShaped_next h
      cases h
    · rename_i v hv
      split at h
      · rename_i hp
        split at h
        · cases h
        · rename_i r hr
          cases h
          exact .inr (.inl ⟨d, v, r, hp, hd, hv, hr, rfl⟩)
      · rename_i hp
        cases h
        exact .inr (.inr ⟨d, v, by simpa using hp, hd, hv, rfl⟩)

/-- Exec_regdest on a register destination and a source with a value, the predicate true. -/
theorem regDest_true {f : Word → Word → Except Fault Word} {e : Ext} {d : RegNum} {b : Arg} {s : State} {t : Task}
    {v : Word} (ht : s.currentTask = some t) (hp : t.flags.holds e = true) (hv : argValue t b = some v) :
    regDest f e (.reg d) b s = match f (t.readReg d) v with
      | .error r => .fault r
      | .ok r => finish s ((t.writeReg d r).setNZZ r) := by
  simp only [regDest, onCurrent_some ht, argRegIndex, hp, hv, if_true] <;> rfl

/-- Exec_regdest on a register destination and a source with a value, the predicate false. -/
theorem regDest_false {f : Word → Word → Except Fault Word} {e : Ext} {d : RegNum} {b : Arg} {s : State} {t : Task}
    {v : Word} (ht : s.currentTask = some t) (hp : t.flags.holds e = false) (hv : argValue t b = some v) :
    regDest f e (.reg d) b s = finish s (if s.params.nzzOnSuppressed then t.setNZZ (t.readReg d) else t) := by
  simp [regDest, onCurrent_some ht, argRegIndex, hp, hv]

/-- Everything JMP, INV and SYS share when they answer a next state. -/
theorem withValue_next {e : Ext} {a : Arg} {s s' : State}
    {effect : Task → Word → Host.Outcome State Fault Refusal} (h : withValue e a s effect = .next s') :
    ∃ t v, s.currentTask = some t ∧ argValue t a = some v ∧
      ((t.flags.holds e = true ∧ effect t v = .next s') ∨
       (t.flags.holds e = false ∧ s' = (s.putTask t).answer .ok)) := by
  obtain ⟨t, ht, h⟩ := onCurrent_next h
  simp only at h
  split at h
  · obtain ⟨_, h⟩ := illShaped_next h
    cases h
  · rename_i v hv
    refine ⟨t, v, ht, hv, ?_⟩
    split at h
    · exact .inl ⟨‹_›, h⟩
    · rename_i hp
      cases h
      exact .inr ⟨by simpa using hp, rfl⟩

/-- `withValue` on an argument with a value. -/
theorem withValue_some {e : Ext} {a : Arg} {s : State} {t : Task} {v : Word}
    {effect : Task → Word → Host.Outcome State Fault Refusal} (ht : s.currentTask = some t)
    (hv : argValue t a = some v) :
    withValue e a s effect = if t.flags.holds e then effect t v else finish s t := by
  simp [withValue, onCurrent_some ht, hv]

/-- Everything a branch can do when it answers a next state. -/
theorem branchTo_next {s s' : State} {t : Task} {target : Word} (h : branchTo s t target = .next s') :
    0 ≤ target.toInt ∧
      (((s.codeSize : Int) ≤ target.toInt ∧ s' = (s.putTask t).answer .jmpOverflow) ∨
       (target.toInt < s.codeSize ∧ s' = (s.putTask { t with pc := target }).answer .ok)) := by
  unfold branchTo s32 at h
  split at h
  · cases h
  · refine ⟨by omega, ?_⟩
    split at h
    · cases h; exact .inl ⟨‹_›, rfl⟩
    · cases h; exact .inr ⟨by omega, rfl⟩

/-! ## The data stack -/

@[simp] theorem Task.dsPushAll_nil (t : Task) : t.dsPushAll [] = t := rfl

@[simp] theorem Task.dsPushAll_cons (t : Task) (v : Word) (vs : List Word) :
    t.dsPushAll (v :: vs) = (t.dsPush v).dsPushAll vs := rfl

/-- A sequence of pushes writes its values above sp, in order, and nothing else but sp. -/
theorem Task.dsPushAll_spec (t : Task) (vs : List Word) :
    (t.dsPushAll vs).sp = t.sp + vs.length ∧
    (t.dsPushAll vs).ds.length = t.ds.length ∧
    (∀ k, k < t.sp ∨ t.sp + vs.length ≤ k → (t.dsPushAll vs).ds[k]? = t.ds[k]?) ∧
    (t.sp + vs.length ≤ t.ds.length → ∀ k (hk : k < vs.length), (t.dsPushAll vs).ds[t.sp + k]? = some vs[k]) ∧
    (t.dsPushAll vs).handle = t.handle ∧ (t.dsPushAll vs).regs = t.regs ∧ (t.dsPushAll vs).flags = t.flags ∧
    (t.dsPushAll vs).pc = t.pc ∧ (t.dsPushAll vs).rpc = t.rpc ∧ (t.dsPushAll vs).cs = t.cs := by
  induction vs generalizing t with
  | nil => simp
  | cons v vs ih =>
    obtain ⟨h1, h2, h3, h4, h5, h6, h7, h8, h9, h10⟩ := ih (t.dsPush v)
    simp only [dsPush_sp, dsPush_ds, List.length_set] at h1 h2 h3 h4
    refine ⟨?_, h2, ?_, ?_, h5, h6, h7, h8, h9, h10⟩
    · simp only [dsPushAll_cons, h1, List.length_cons]; omega
    · intro k hk
      simp only [List.length_cons] at hk
      rw [dsPushAll_cons, h3 k (by omega), List.getElem?_set_ne (by omega)]
    · intro hle k hk
      simp only [List.length_cons] at hle hk
      cases k with
      | zero =>
        rw [dsPushAll_cons, Nat.add_zero, h3 t.sp (by omega)]
        simp [List.getElem?_set_self (show t.sp < t.ds.length by omega)]
      | succ k =>
        have := h4 (by omega) k (by omega)
        rw [dsPushAll_cons, show t.sp + (k + 1) = t.sp + 1 + k by omega, this]
        simp

/-- A sequence of pushes that fits is a push of its values. -/
theorem Task.dsPushAll_pushed (t : Task) (vs : List Word) (v : Nat → Word) (hv : ∀ k (hk : k < vs.length), vs[k] = v k)
    (hle : t.sp + vs.length ≤ t.ds.length) : PushedEntries t (t.dsPushAll vs) vs.length v := by
  obtain ⟨h1, _, h3, h4, h5, h6, h7, h8, h9, h10⟩ := t.dsPushAll_spec vs
  exact ⟨h1, fun k hk => by rw [h4 hle k hk, hv k hk], h3, h5, h6, h7, h8, h9, h10⟩

/-- A sequence of pops leaves everything but the popped registers, sp and the flags NZ and Z. -/
theorem popInto_frame (b : Bool) (t : Task) (rs : List RegNum) :
    (popInto b t rs).sp = t.sp - rs.length ∧ (popInto b t rs).ds = t.ds ∧ (popInto b t rs).cs = t.cs ∧
    (popInto b t rs).handle = t.handle ∧ (popInto b t rs).pc = t.pc ∧ (popInto b t rs).rpc = t.rpc ∧
    (b = false → (popInto b t rs).flags = t.flags) ∧
    (∀ r : RegNum, r ∉ rs → (popInto b t rs).readReg r = t.readReg r) := by
  induction rs generalizing t with
  | nil => simp [popInto]
  | cons r rs ih =>
    simp only [popInto]
    obtain ⟨h1, h2, h3, h4, h5, h6, h7, h8⟩ :=
      ih (if b then (t.dsPop.2.writeReg r t.dsPop.1).setNZZ t.dsPop.1 else t.dsPop.2.writeReg r t.dsPop.1)
    refine ⟨?_, ?_, ?_, ?_, ?_, ?_, ?_, ?_⟩
    · rw [h1]; cases b <;> simp <;> omega
    · rw [h2]; cases b <;> rfl
    · rw [h3]; cases b <;> rfl
    · rw [h4]; cases b <;> rfl
    · rw [h5]; cases b <;> rfl
    · rw [h6]; cases b <;> rfl
    · intro hb; rw [h7 hb]; subst hb; rfl
    · intro q hq
      simp only [List.mem_cons, not_or] at hq
      rw [h8 q hq.2]
      have hne : r.val ≠ q.val := fun e => hq.1 (Fin.ext e.symm)
      cases b <;> simp [Task.readReg, hne]

/-- A sequence of pops into distinct registers gives the `j`-th one the entry `j` below the top. -/
theorem popInto_regs (b : Bool) (t : Task) (rs : List RegNum) (hn : rs.Nodup) (j : Nat) (q : RegNum)
    (hq : rs[j]? = some q) : (popInto b t rs).readReg q = t.dsRead (t.sp - 1 - j) := by
  induction rs generalizing t j with
  | nil => simp at hq
  | cons r rs ih =>
    have hn' := List.nodup_cons.mp hn
    simp only [popInto]
    cases j with
    | zero =>
      simp only [List.getElem?_cons_zero, Option.some.injEq] at hq
      subst hq
      rw [(popInto_frame b _ rs).2.2.2.2.2.2.2 r hn'.1]
      cases b <;> simp [Task.readReg, Task.dsPop]
    | succ j =>
      rw [ih _ hn'.2 j (by simpa using hq)]
      cases b <;> simp [Task.dsRead, show t.sp - 1 - 1 - j = t.sp - 1 - (j + 1) by omega]

/-- A sequence of pops that sets NZ and Z does so for each entry it pops, and leaves the other flags. -/
theorem popInto_flags (t : Task) (rs : List RegNum) :
    (popInto true t rs).flags =
      { t.flags with nz := (popInto true t rs).flags.nz, z := (popInto true t rs).flags.z } ∧
    ((popInto true t rs).flags.nz = true ↔
      t.flags.nz = true ∨ ∃ j < rs.length, t.dsRead (t.sp - 1 - j) ≠ 0) ∧
    ((popInto true t rs).flags.z = true ↔
      t.flags.z = true ∨ ∃ j < rs.length, t.dsRead (t.sp - 1 - j) = 0) := by
  induction rs generalizing t with
  | nil => simp [popInto]
  | cons r rs ih =>
    obtain ⟨h1, h2, h3⟩ := ih ((t.dsPop.2.writeReg r t.dsPop.1).setNZZ t.dsPop.1)
    have below (p : Word → Prop) : (∃ j < (r :: rs).length, p (t.dsRead (t.sp - 1 - j))) ↔
        p (t.dsRead (t.sp - 1)) ∨ ∃ j < rs.length, p (t.dsRead (t.sp - 1 - 1 - j)) := by
      constructor
      · rintro ⟨_ | j, hj, hp⟩
        · exact .inl hp
        · exact .inr ⟨j, by simpa using hj, by rwa [show t.sp - 1 - 1 - j = t.sp - 1 - (j + 1) by omega]⟩
      · rintro (hp | ⟨j, hj, hp⟩)
        · exact ⟨0, by simp, hp⟩
        · exact ⟨j + 1, by simpa using hj, by rwa [show t.sp - 1 - (j + 1) = t.sp - 1 - 1 - j by omega]⟩
    have unrolled : popInto true t (r :: rs) = popInto true ((t.dsPop.2.writeReg r t.dsPop.1).setNZZ t.dsPop.1) rs := rfl
    rw [unrolled]
    refine ⟨h1, ?_, ?_⟩
    · rw [h2, below (· ≠ 0), ← or_assoc]
      simp [Flags.setNZZ, Task.dsPop, Task.dsRead]
    · rw [h3, below (· = 0), ← or_assoc]
      simp [Flags.setNZZ, Task.dsPop, Task.dsRead]

/-- A register range has Rhi - Rlo + 1 registers, ascending from Rlo. -/
theorem regRange_spec : ∀ lo hi : RegNum, lo < hi →
    (regRange lo hi).length = hi.val - lo.val + 1 ∧ (regRange lo hi).Nodup ∧
    ∀ k : RegNum, k.val ≤ hi.val - lo.val → (regRange lo hi)[k.val]? = some (Fin.ofNat 16 (lo.val + k.val)) := by
  decide

end Sys2Proof.Machine
end

