-- ==== Sys2Proof/Laws/Exec.lean ====
section
/-! SUPPORT. Everything an instruction, a cycle and a step can do when they answer a next state, said once. -/

namespace Sys2Proof.Machine

/-- The next states an instruction can answer with on the current task `t`, one constructor for each way it can end. -/
inductive Effect (s : State) (t : Task) : Instr → State → Prop
  | nop (e a b) : Effect s t (.nop e a b) (s.answer .ok)
  | endRun (e a b) (hp : t.flags.holds e = true) : Effect s t (.endVm e a b) ({ s with running := false }.answer .ok)
  | endSkip (e a b) (hp : t.flags.holds e = false) : Effect s t (.endVm e a b) (s.answer .ok)
  | regError (i : Instr) (hi : isRegDest i = true) (hp : t.flags.holds i.ext = true)
      (hd : argRegIndex i.arg1 = none) : Effect s t i (s.answer .argNotReg)
  | regWrite (i : Instr) (d r) (hi : isRegDest i = true) (hp : t.flags.holds i.ext = true)
      (hd : argRegIndex i.arg1 = some d) : Effect s t i ((s.putTask ((t.writeReg d r).setNZZ r)).answer .ok)
  | regSkip (i : Instr) (d) (hi : isRegDest i = true) (hp : t.flags.holds i.ext = false)
      (hd : argRegIndex i.arg1 = some d) :
      Effect s t i ((s.putTask (if s.params.nzzOnSuppressed then t.setNZZ (t.readReg d) else t)).answer .ok)
  | pushOrder (e a b) (hp : t.flags.holds e = true) (hs : pushShape t a b = .badOrder) :
      Effect s t (.push e a b) (s.answer .pushArgBadOrder)
  | pushFull (e a b vs) (hp : t.flags.holds e = true) (hs : pushShape t a b = .values vs)
      (hf : t.ds.length < t.sp + vs.length) : Effect s t (.push e a b) (s.answer .stkOverflow)
  | push (e a b vs) (hp : t.flags.holds e = true) (hs : pushShape t a b = .values vs)
      (hf : t.sp + vs.length ≤ t.ds.length) : Effect s t (.push e a b) ((s.putTask (t.dsPushAll vs)).answer .ok)
  | pushSkip (e a b) (hp : t.flags.holds e = false) : Effect s t (.push e a b) ((s.putTask t).answer .ok)
  | popEmpty (e a b rs) (hp : t.flags.holds e = true) (hs : popShape a b = .registers rs)
      (hf : t.sp < rs.length) : Effect s t (.pop e a b) (s.answer .stkUnderflow)
  | pop (e a b rs) (hp : t.flags.holds e = true) (hs : popShape a b = .registers rs) (hf : rs.length ≤ t.sp) :
      Effect s t (.pop e a b) ((s.putTask (popInto s.params.popSetsNzz t rs)).answer .ok)
  | popSkip (e a b) (hp : t.flags.holds e = false) : Effect s t (.pop e a b) ((s.putTask t).answer .ok)
  | cmp (e a b v w) (hp : t.flags.holds e = true) (hv : argValue t a = some v) (hw : argValue t b = some w) :
      Effect s t (.cmp e a b) ((s.putTask { t with flags := t.flags.compare v w }).answer .ok)
  | cmpSkip (e a b) (hp : t.flags.holds e = false) : Effect s t (.cmp e a b) ((s.putTask t).answer .ok)
  | clf (e a b) : Effect s t (.clf e a b) ((s.putTask { t with flags := t.flags.clearSelected e }).answer .ok)
  | jmp (e a b v) (hp : t.flags.holds e = true) (hv : argValue t a = some v) (h0 : 0 ≤ v.toInt)
      (h1 : v.toInt < s.codeSize) : Effect s t (.jmp e a b) ((s.putTask { t with pc := v }).answer .ok)
  | jmpOver (e a b v) (hp : t.flags.holds e = true) (hv : argValue t a = some v) (h1 : (s.codeSize : Int) ≤ v.toInt) :
      Effect s t (.jmp e a b) ((s.putTask t).answer .jmpOverflow)
  | jmpSkip (e a b) (hp : t.flags.holds e = false) : Effect s t (.jmp e a b) ((s.putTask t).answer .ok)
  | invFull (e a b) (hp : t.flags.holds e = true) (hf : t.rpc = t.cs.length) :
      Effect s t (.inv e a b) (s.answer .callStkOverflow)
  | inv (e a b v) (hp : t.flags.holds e = true) (hv : argValue t a = some v) (hf : t.rpc ≠ t.cs.length)
      (h0 : 0 ≤ v.toInt) (h1 : v.toInt < s.codeSize) :
      Effect s t (.inv e a b) ((s.putTask { t.csPush t.pc with pc := v }).answer .ok)
  | invOver (e a b v) (hp : t.flags.holds e = true) (hv : argValue t a = some v) (hf : t.rpc ≠ t.cs.length)
      (h1 : (s.codeSize : Int) ≤ v.toInt) :
      Effect s t (.inv e a b) ((s.putTask (t.csPush t.pc)).answer .jmpOverflow)
  | invSkip (e a b) (hp : t.flags.holds e = false) : Effect s t (.inv e a b) ((s.putTask t).answer .ok)
  | retEmpty (e a b) (hf : t.rpc = 0) : Effect s t (.ret e a b) (s.answer .callStkUnderflow)
  | ret (e a b) (hf : t.rpc ≠ 0) :
      Effect s t (.ret e a b) ((s.putTask { t.csPop.2 with pc := t.csPop.1 }).answer .ok)
  | sys (e a b regs ctx) (hp : t.flags.holds e = true) :
      Effect s t (.sys e a b)
        (({ s with hostCtx := ctx, draws := s.draws + 1 }.putTask { t with regs := regs }).answer .ok)
  | sysSkip (e a b) (hp : t.flags.holds e = false) : Effect s t (.sys e a b) ((s.putTask t).answer .ok)

/-- The register-destination instructions end in one of three ways. -/
theorem effect_regDest {f : Word → Word → Except Fault Word} {s s' : State} {t : Task} (i : Instr)
    (hi : isRegDest i = true) (ht : s.currentTask = some t)
    (h : regDest f i.ext i.arg1 i.arg2 s = .next s') : Effect s t i s' := by
  obtain ⟨u, hu, h⟩ := regDest_next h
  cases ht.symm.trans hu
  rcases h with ⟨hp, hd, rfl⟩ | ⟨d, v, r, hp, hd, hv, hr, rfl⟩ | ⟨d, v, hp, hd, hv, rfl⟩
  · exact .regError i hi hp hd
  · exact .regWrite i d r hi hp hd
  · exact .regSkip i d hi hp hd

theorem effect_push {e : Ext} {a b : Arg} {s s' : State} {t : Task} (ht : s.currentTask = some t)
    (h : execPush e a b s = .next s') : Effect s t (.push e a b) s' := by
  unfold execPush at h
  rw [onCurrent_some ht] at h
  simp only at h
  split at h
  · obtain ⟨hp, h⟩ := illShaped_next h
    cases h
    exact .pushOrder e a b hp ‹_›
  · obtain ⟨_, h⟩ := illShaped_next h
    cases h
  · rename_i vs hs
    split at h
    · rename_i hp
      split at h
      · cases h
        exact .pushFull e a b vs hp hs ‹_›
      · cases h
        exact .push e a b vs hp hs (by omega)
    · cases h
      exact .pushSkip e a b (by simp_all)

theorem effect_pop {e : Ext} {a b : Arg} {s s' : State} {t : Task} (ht : s.currentTask = some t)
    (h : execPop e a b s = .next s') : Effect s t (.pop e a b) s' := by
  unfold execPop at h
  rw [onCurrent_some ht] at h
  simp only at h
  split at h
  · obtain ⟨_, h⟩ := illShaped_next h
    cases h
  · obtain ⟨_, h⟩ := illShaped_next h
    cases h
  · rename_i rs hs
    split at h
    · rename_i hp
      split at h
      · cases h
        exact .popEmpty e a b rs hp hs ‹_›
      · cases h
        exact .pop e a b rs hp hs (by omega)
    · cases h
      exact .popSkip e a b (by simp_all)

theorem effect_cmp {e : Ext} {a b : Arg} {s s' : State} {t : Task} (ht : s.currentTask = some t)
    (h : execCmp e a b s = .next s') : Effect s t (.cmp e a b) s' := by
  unfold execCmp at h
  rw [onCurrent_some ht] at h
  simp only at h
  split at h
  · rename_i v w hv hw
    cases h
    split
    · exact .cmp e a b v w ‹_› hv hw
    · exact .cmpSkip e a b (by simp_all)
  · obtain ⟨_, h⟩ := illShaped_next h
    cases h
  · obtain ⟨_, h⟩ := illShaped_next h
    cases h

theorem effect_jmp {e : Ext} {a b : Arg} {s s' : State} {t : Task} (ht : s.currentTask = some t)
    (h : execJmp e a b s = .next s') : Effect s t (.jmp e a b) s' := by
  obtain ⟨u, v, hu, hv, h⟩ := withValue_next h
  cases ht.symm.trans hu
  rcases h with ⟨hp, h⟩ | ⟨hp, rfl⟩
  · obtain ⟨h0, ⟨h1, rfl⟩ | ⟨h1, rfl⟩⟩ := branchTo_next h
    · exact .jmpOver e a b v hp hv h1
    · exact .jmp e a b v hp hv h0 h1
  · exact .jmpSkip e a b hp

theorem effect_inv {e : Ext} {a b : Arg} {s s' : State} {t : Task} (ht : s.currentTask = some t)
    (h : execInv e a b s = .next s') : Effect s t (.inv e a b) s' := by
  obtain ⟨u, v, hu, hv, h⟩ := withValue_next h
  cases ht.symm.trans hu
  rcases h with ⟨hp, h⟩ | ⟨hp, rfl⟩
  · split at h
    · cases h
      exact .invFull e a b hp ‹_›
    · obtain ⟨h0, ⟨h1, rfl⟩ | ⟨h1, rfl⟩⟩ := branchTo_next h
      · exact .invOver e a b v hp hv ‹_› h1
      · exact .inv e a b v hp hv ‹_› h0 h1
  · exact .invSkip e a b hp

theorem effect_ret {e : Ext} {a b : Arg} {s s' : State} {t : Task} (ht : s.currentTask = some t)
    (h : execRet e a b s = .next s') : Effect s t (.ret e a b) s' := by
  unfold execRet at h
  rw [onCurrent_some ht] at h
  simp only at h
  split at h
  · cases h
    exact .retEmpty e a b ‹_›
  · cases h
    exact .ret e a b ‹_›

theorem effect_sys {e : Ext} {a b : Arg} {s s' : State} {t : Task} (ht : s.currentTask = some t)
    (h : execSys e a b s = .next s') : Effect s t (.sys e a b) s' := by
  obtain ⟨u, v, hu, hv, h⟩ := withValue_next h
  cases ht.symm.trans hu
  rcases h with ⟨hp, h⟩ | ⟨hp, rfl⟩
  · split at h
    · cases h
    · cases h
      exact .sys e a b _ _ hp
  · exact .sysSkip e a b hp

theorem effect_end {e : Ext} {a b : Arg} {s s' : State} {t : Task} (ht : s.currentTask = some t)
    (h : execEnd e a b s = .next s') : Effect s t (.endVm e a b) s' := by
  unfold execEnd at h
  rw [onCurrent_some ht] at h
  cases h
  cases hp : t.flags.holds e
  · exact .endSkip e a b hp
  · exact .endRun e a b hp

/-- Every next state an instruction answers with is one of its effects. -/
theorem exec_next {i : Instr} {s s' : State} {t : Task} (ht : s.currentTask = some t)
    (h : exec i s = .next s') : Effect s t i s' := by
  cases i with
  | nop e a b => cases h; exact .nop e a b
  | endVm e a b => exact effect_end ht h
  | mov e a b => exact @effect_regDest (fun _ src => .ok src) s s' t (.mov e a b) rfl ht h
  | push e a b => exact effect_push ht h
  | pop e a b => exact effect_pop ht h
  | add e a b => exact @effect_regDest addWords s s' t (.add e a b) rfl ht h
  | sub e a b => exact @effect_regDest subWords s s' t (.sub e a b) rfl ht h
  | mul e a b => exact @effect_regDest mulWords s s' t (.mul e a b) rfl ht h
  | div e a b => exact @effect_regDest divWords s s' t (.div e a b) rfl ht h
  | and e a b => exact @effect_regDest andWords s s' t (.and e a b) rfl ht h
  | or e a b => exact @effect_regDest orWords s s' t (.or e a b) rfl ht h
  | xor e a b => exact @effect_regDest xorWords s s' t (.xor e a b) rfl ht h
  | shl e a b => exact @effect_regDest shlWords s s' t (.shl e a b) rfl ht h
  | shr e a b => exact @effect_regDest shrWords s s' t (.shr e a b) rfl ht h
  | cmp e a b => exact effect_cmp ht h
  | clf e a b =>
    simp only [exec, execClf, onCurrent_some ht] at h
    cases h
    exact .clf e a b
  | jmp e a b => exact effect_jmp ht h
  | inv e a b => exact effect_inv ht h
  | ret e a b => exact effect_ret ht h
  | sys e a b => exact effect_sys ht h

/-- Everything a cycle can do when it answers a next state. -/
theorem cycle_next {s s' : State} (h : cycle s = .next s') :
    (s.running = false ∧ s' = s.answer .notRunning) ∨
    (s.running = true ∧ ∃ t, s.currentTask = some t ∧
      ((s.codeSize ≤ t.pc.toNat ∧ s' = { s with running := false }.answer .codeOverflow) ∨
       (∃ i rest, decode (s.fetchWords t.pc.toNat) = .ok (i, rest) ∧
          exec i (s.putTask (t.advance i.length)) = .next s') ∨
       (∃ op n, decode (s.fetchWords t.pc.toNat) = .error (.unknownOpcode op n) ∧
          s' = (s.putTask (t.advance (1 + n))).answer .unknownInstruction))) := by
  unfold cycle at h
  split at h
  · rename_i hr
    obtain ⟨t, ht, h⟩ := onCurrent_next h
    refine .inr ⟨hr, t, ht, ?_⟩
    unfold cycleTask u32 State.fetch at h
    split at h
    · cases h
      exact .inl ⟨‹_›, rfl⟩
    · rename_i hlt
      cases hd : decode (s.fetchWords t.pc.toNat) with
      | ok p =>
        rw [hd] at h
        exact .inr (.inl ⟨p.1, p.2, rfl, h⟩)
      | error x =>
        rw [hd] at h
        cases x with
        | noWord =>
          have hne := mt (State.fetchWords_eq_nil s t.pc.toNat).mp hlt
          unfold decode at hd
          split at hd
          · exact absurd ‹_› hne
          · repeat' split at hd
            all_goals cases hd
            all_goals
              rename_i hx
              unfold decodeArg at hx
              repeat' split at hx
              all_goals cases hx
        | immPastEnd => cases h
        | unknownOpcode op n =>
          cases h
          exact .inr (.inr ⟨op, n, rfl, rfl⟩)
  · cases h
    exact .inl ⟨by simp_all, rfl⟩

/-- A step with nothing waiting and no FAULT is a cycle. -/
theorem step_eq_cycle {s : State} (h : s.cycleIsNext) : step s = cycle s := by
  unfold step
  rw [h.1]
  simp only [serve, h.2]

/-- A step that serves a cycle, FAULT being none, is a cycle without the operation that asked for it. -/
theorem step_of_stepIsCycle {s : State} (h : s.stepIsCycle) (hf : s.fault = none) :
    step s = cycle { s with calls := s.calls.tail } := by
  cases s
  rcases h with h | ⟨rest, h⟩
  · cases h; cases hf; rfl
  · cases h; cases hf; rfl

end Sys2Proof.Machine
end

