-- ==== Sys2Proof/Laws/PerInstr.lean ====
section
/-! SUPPORT. Facts about every instruction as syntax, one lemma per constructor. -/

namespace Sys2Proof.Laws.EncodedLength

/-- An instruction is encoded in as many words as its length says, one to three of them (30_encoding.md R63). -/
def Statement (i : Instr) : Prop := (encode i).length = i.length ∧ 1 ≤ i.length ∧ i.length ≤ 3

/-- An argument has at most one literal. -/
theorem literals_le (a : Arg) : a.literals.length ≤ 1 := by
  cases a <;> simp [Arg.literals]

/-- The statement holds of any instruction, whatever its opcode. -/
theorem of_fields (i : Instr) : Statement i := by
  have ha := literals_le i.arg1
  have hb := literals_le i.arg2
  simp only [Statement, encode, Instr.length, List.length_cons, List.length_append]
  omega

theorem nop (e : Ext) (a b : Arg) : Statement (.nop e a b) := of_fields _

theorem endVm (e : Ext) (a b : Arg) : Statement (.endVm e a b) := of_fields _

theorem mov (e : Ext) (a b : Arg) : Statement (.mov e a b) := of_fields _

theorem push (e : Ext) (a b : Arg) : Statement (.push e a b) := of_fields _

theorem pop (e : Ext) (a b : Arg) : Statement (.pop e a b) := of_fields _

theorem add (e : Ext) (a b : Arg) : Statement (.add e a b) := of_fields _

theorem sub (e : Ext) (a b : Arg) : Statement (.sub e a b) := of_fields _

theorem mul (e : Ext) (a b : Arg) : Statement (.mul e a b) := of_fields _

theorem div (e : Ext) (a b : Arg) : Statement (.div e a b) := of_fields _

theorem and (e : Ext) (a b : Arg) : Statement (.and e a b) := of_fields _

theorem or (e : Ext) (a b : Arg) : Statement (.or e a b) := of_fields _

theorem xor (e : Ext) (a b : Arg) : Statement (.xor e a b) := of_fields _

theorem shl (e : Ext) (a b : Arg) : Statement (.shl e a b) := of_fields _

theorem shr (e : Ext) (a b : Arg) : Statement (.shr e a b) := of_fields _

theorem cmp (e : Ext) (a b : Arg) : Statement (.cmp e a b) := of_fields _

theorem clf (e : Ext) (a b : Arg) : Statement (.clf e a b) := of_fields _

theorem jmp (e : Ext) (a b : Arg) : Statement (.jmp e a b) := of_fields _

theorem inv (e : Ext) (a b : Arg) : Statement (.inv e a b) := of_fields _

theorem ret (e : Ext) (a b : Arg) : Statement (.ret e a b) := of_fields _

theorem sys (e : Ext) (a b : Arg) : Statement (.sys e a b) := of_fields _

end Sys2Proof.Laws.EncodedLength
end

