-- ==== Sys2Proof/Machine/Assembler.lean ====
section
/-! DEFINITION. The toolchain view of the encoding: the source language of the assembler and the words it emits
(30_encoding.md R72 to R82). No step of the machine calls it: the core sees only words (00_scope.md R5). What the spec does
not state about the source language is listed in log entries 28, 30 and 31. -/

namespace Sys2Proof.Machine

/-- The assembler's results other than OK (30_encoding.md R79). -/
inductive AsmError where
  /-- Never returned: a null pointer cannot be passed to a typed function. -/
  | nullArg
  /-- Never returned: the model's assembler has memory. -/
  | badAlloc
  /-- Never returned: every constraint that the table states is ANY (R75), and for PUSH and POP, whose constraint pair it does
  not state (91_not_in_source.md N12), the model checks none. DESIGN CHOICE for PUSH and POP (log entry 31). -/
  | argConstraintUnsatisfied
  /-- A referenced label has no definition (R78). -/
  | undefinedLabel
  /-- Never returned: files are out of scope (00_scope.md R4). -/
  | fileOpenFailed
  /-- A required operand is missing (R79). -/
  | expectedToken
  /-- The model's own: a label defined twice, a case the spec does not state (91_not_in_source.md N11). -/
  | duplicateLabel
  /-- The model's own: a literal of 2^32 or more, a case the spec does not state (N11). -/
  | literalTooLarge
  deriving DecidableEq, Repr

/-- A token: a run of characters that are no separator. -/
abbrev Token := List Char

/-- A finished token, given its characters last first. -/
def flushToken (cur : List Char) : List Token := if cur.isEmpty then [] else [cur.reverse]

/-- Tokenize: spaces, newlines and '.' separate tokens, '#' starts a comment that runs to the end of the line (R72).
DESIGN CHOICE (log entry 28): every other character, a tab and a carriage return among them, is part of its token, and only
a newline ends a line. -/
def tokenize (comment : Bool) (cur : List Char) : List Char → List Token
  | [] => flushToken cur
  | c :: cs =>
    if comment then tokenize (c != '\n') [] cs
    else if c = '#' then flushToken cur ++ tokenize true [] cs
    else if c = ' ' ∨ c = '\n' ∨ c = '.' then flushToken cur ++ tokenize false [] cs
    else tokenize false (c :: cur) cs

/-- The opcodes by mnemonic (R66, R73). -/
def mnemonicTable : List (Token × Byte) :=
  [("nop".toList, 0), ("end".toList, 1), ("mov".toList, 2), ("push".toList, 3), ("pop".toList, 4),
   ("add".toList, 5), ("sub".toList, 6), ("mul".toList, 7), ("div".toList, 8), ("and".toList, 9)] ++
  [("or".toList, 10), ("xor".toList, 11), ("shl".toList, 12), ("shr".toList, 13), ("cmp".toList, 14),
   ("clf".toList, 15), ("jmp".toList, 16), ("inv".toList, 17), ("ret".toList, 18), ("sys".toList, 19)]

/-- The extensions by suffix (R65). -/
def suffixTable : List (Token × Ext) :=
  [("eq".toList, .flag .eq), ("ne".toList, .flag .ne), ("lt".toList, .flag .lt), ("le".toList, .flag .le),
   ("gt".toList, .flag .gt), ("ge".toList, .flag .ge), ("nz".toList, .flag .nz), ("z".toList, .flag .z)]

/-- The registers by name (R73, R74). -/
def registerTable : List (Token × RegNum) :=
  [("r0".toList, 0), ("r1".toList, 1), ("r2".toList, 2), ("r3".toList, 3), ("r4".toList, 4), ("r5".toList, 5),
   ("r6".toList, 6), ("r7".toList, 7)] ++
  [("r8".toList, 8), ("r9".toList, 9), ("r10".toList, 10), ("r11".toList, 11), ("r12".toList, 12),
   ("r13".toList, 13), ("r14".toList, 14), ("r15".toList, 15)]

/-- The entry of a table under a name; the first one where there are two. -/
def lookupToken {α : Type} (k : Token) : List (Token × α) → Option α
  | [] => none
  | (k', v) :: rest => if k' = k then some v else lookupToken k rest

/-- The value of a digit character in a base up to 16 (R76). -/
def digitValue (base : Nat) (c : Char) : Option Nat :=
  let n := c.toNat
  let v := if 48 ≤ n ∧ n ≤ 57 then n - 48 else if 97 ≤ n ∧ n ≤ 102 then n - 87 else if 65 ≤ n ∧ n ≤ 70 then n - 55 else 16
  if v < base then some v else none

/-- The number a run of digits stands for, continuing from `acc`. -/
def digitsValue (base acc : Nat) : List Char → Option Nat
  | [] => some acc
  | c :: cs =>
    match digitValue base c with
    | none => none
    | some d => digitsValue base (acc * base + d) cs

/-- A numeric literal: `0x` base 16, `0b` base 2, otherwise base 10; anything else is no literal (R76). -/
def literalOf : Token → Option Nat
  | [] => none
  | '0' :: 'x' :: c :: cs => digitsValue 16 0 (c :: cs)
  | '0' :: 'b' :: c :: cs => digitsValue 2 0 (c :: cs)
  | c :: cs => digitsValue 10 0 (c :: cs)

/-- An operand as written: a register, a literal, or a reference to a label (R73, R74). -/
inductive SourceArg where
  | reg (r : RegNum)
  | literal (n : Nat)
  | label (name : Token)
  deriving DecidableEq, Repr

/-- Read an operand token; what is no register and no literal is a label reference (R74, R76). -/
def sourceArg (tok : Token) : SourceArg :=
  match lookupToken tok registerTable with
  | some r => .reg r
  | none =>
    match literalOf tok with
    | some n => .literal n
    | none => .label tok

/-- What the parse pass has so far: the words emitted, the labels with their offsets, and the patches, each the name of a
label and the offset of a placeholder (R77, R78). -/
structure AsmState where
  words : List Word
  labels : List (Token × Nat)
  patches : List (Token × Nat)
  deriving DecidableEq, Repr

/-- How many operands an opcode takes; PUSH and POP take one or two (R75). -/
def minOperands (op : Byte) : Nat :=
  match op.toNat with
  | 0 | 1 | 15 | 18 => 0
  | 3 | 4 | 16 | 17 | 19 => 1
  | _ => 2

/-- May a second operand follow the first: PUSH and POP, "the same one-or-two-operand forms" (R75). -/
def hasOptionalSecond (op : Byte) : Bool := op = 3 || op = 4

/-- The argument of an operand whose literal word would stand at `offset`, with the patch it needs: a label that is
already defined is its offset, another one a placeholder (R74, R77, R78). -/
def assembleArg (labels : List (Token × Nat)) (offset : Nat) : SourceArg → Except AsmError (Arg × List (Token × Nat))
  | .reg r => .ok (.reg r, [])
  | .literal n => if n < 2 ^ 32 then .ok (.imm (BitVec.ofNat 32 n), []) else .error .literalTooLarge
  | .label name =>
    match lookupToken name labels with
    | some target => .ok (.imm (BitVec.ofNat 32 target), [])
    | none => .ok (.imm 0, [(name, offset)])

/-- The optional suffix at the head of the tokens (R74). -/
def takeSuffix : List Token → Ext × List Token
  | [] => (.none, [])
  | tok :: rest =>
    match lookupToken tok suffixTable with
    | some e => (e, rest)
    | none => (.none, tok :: rest)

/-- The operands at the head of the tokens (R74, R75). DESIGN CHOICE for PUSH and POP (log entry 31), whose constraint pair
the spec does not state: the first operand is ANY, a register, a literal or a label, so `pop 5` and `push 5 r1` assemble; a
second operand is there exactly if the token after the first is a register. -/
def takeOperands (op : Byte) (toks : List Token) : Except AsmError (List SourceArg × List Token) :=
  match minOperands op, toks with
  | 0, rest => .ok ([], rest)
  | 1, a :: b :: rest =>
    if hasOptionalSecond op && (lookupToken b registerTable).isSome then .ok ([sourceArg a, sourceArg b], rest)
    else .ok ([sourceArg a], b :: rest)
  | 1, [a] => .ok ([sourceArg a], [])
  | _, a :: b :: rest => .ok ([sourceArg a, sourceArg b], rest)
  | _, _ => .error .expectedToken

/-- Emit one instruction: the packed word, then a literal word for each IMM operand (R74). -/
def emitInstr (st : AsmState) (op : Byte) (e : Ext) (args : List SourceArg) : Except AsmError AsmState :=
  let first := st.words.length + 1
  let none2 : Except AsmError (Arg × List (Token × Nat)) := .ok (.none, [])
  match (args[0]?).elim none2 (assembleArg st.labels first) with
  | .error err => .error err
  | .ok (a, pa) =>
    match (args[1]?).elim none2 (assembleArg st.labels (first + a.literals.length)) with
    | .error err => .error err
    | .ok (b, pb) =>
      .ok { st with
        words := st.words ++ pack op e.code a.code b.code :: (a.literals ++ b.literals)
        patches := st.patches ++ pa ++ pb }

/-- A label's name: the trailing ':' of a definition is not part of it (R77, D34). DESIGN CHOICE (log entry 30): one ':' is
taken off, and what is left may be any token. -/
def labelName (tok : Token) : Token := if tok.getLast? = some ':' then tok.dropLast else tok

/-- Parse pass: a token that is no mnemonic defines a label at the current offset (R74, R77). DESIGN CHOICE (log entry 30):
the token is looked up as it is written, so a mnemonic with ':' after it, such as `end:`, is no mnemonic and defines a label
of the mnemonic's name. The fuel bounds the number of items; each takes at least one token. -/
def parsePass : (fuel : Nat) → AsmState → List Token → Except AsmError AsmState
  | _, st, [] => .ok st
  | 0, _, _ :: _ => .error .expectedToken
  | fuel + 1, st, tok :: toks =>
    match lookupToken tok mnemonicTable with
    | none =>
      let name := labelName tok
      if (lookupToken name st.labels).isSome then .error .duplicateLabel
      else parsePass fuel { st with labels := st.labels ++ [(name, st.words.length)] } toks
    | some op =>
      let suffix := takeSuffix toks
      match takeOperands op suffix.2 with
      | .error err => .error err
      | .ok (args, rest) =>
        match emitInstr st op suffix.1 args with
        | .error err => .error err
        | .ok st' => parsePass fuel st' rest

/-- Patch pass: each placeholder gets its label's offset; a label without a definition is UNDEFINED_LABEL (R78). -/
def patchPass (labels : List (Token × Nat)) : List (Token × Nat) → List Word → Except AsmError (List Word)
  | [], words => .ok words
  | (name, offset) :: rest, words =>
    match lookupToken name labels with
    | none => .error .undefinedLabel
    | some target => patchPass labels rest (words.set offset (BitVec.ofNat 32 target))

/-- Assemble a source text: the parse pass, then the patch pass; no words on failure (R74, R78, R82). -/
def assemble (source : List Char) : Except AsmError (List Word) :=
  let toks := tokenize false [] source
  match parsePass toks.length { words := [], labels := [], patches := [] } toks with
  | .error err => .error err
  | .ok st => patchPass st.labels st.patches st.words

end Sys2Proof.Machine
end

