-- ==== Sys2Proof/Tests/Slice0.lean ====
section
/-! SUPPORT. Tests: ill-formed terms, one decoded word for each constructor, one-step tests with the results of the
spec's own vectors (95_test_vectors.md), the assembler, and a witness for the hypotheses of each obligation. -/

namespace Sys2Proof.Tests

open Sys2Proof.Machine

/-! ## Well-formedness: each check refuses an ill-formed term (30_encoding.md R64, R65) -/

theorem test_wf_ext_8_is_not_reserved : (Instr.nop (.reserved 8) .none .none).wellFormed = false := by decide

theorem test_wf_ext_9_is_reserved : (Instr.nop (.reserved 9) .none .none).wellFormed = true := by decide

theorem test_wf_arg1_17_is_not_reserved : (Instr.mov .none (.reserved 17) .none).wellFormed = false := by decide

theorem test_wf_arg2_17_is_not_reserved : (Instr.mov .none (.reg 0) (.reserved 17)).wellFormed = false := by decide

theorem test_wf_args_18_are_reserved : (Instr.mov .none (.reserved 18) (.reserved 255)).wellFormed = true := by decide

/-! ## Decoding: one word for each constructor, bits 31:24 arg2, 23:16 arg1, 15:8 ext, 7:0 op (R60, R66) -/

theorem test_decode_nop : decodeTableWord 32 0x00000000 = some (.nop .none .none .none) := by decide

theorem test_decode_end : decodeTableWord 32 0x00000101 = some (.endVm (.flag .eq) .none .none) := by decide

/-- mov.eq r0 99: arg2 17, arg1 1, ext 1, op 2, then the literal. -/
theorem test_decode_mov :
    decode [0b00010001000000010000000100000010, 99] = .ok (.mov (.flag .eq) (.reg 0) (.imm 99), []) := by rfl

/-- push r0 r2: arg2 3, arg1 1, ext 0, op 3. -/
theorem test_decode_push : decode [0b00000011000000010000000000000011] = .ok (.push .none (.reg 0) (.reg 2), []) := by rfl

theorem test_decode_pop : decodeTableWord 32 0x00060004 = some (.pop .none (.reg 5) .none) := by decide

/-- add.nz r1 1: arg2 17, arg1 2, ext 7, op 5, then the literal. -/
theorem test_decode_add :
    decode [0b00010001000000100000011100000101, 1] = .ok (.add (.flag .nz) (.reg 1) (.imm 1), []) := by rfl

theorem test_decode_sub : decodeTableWord 32 0x02010006 = some (.sub .none (.reg 0) (.reg 1)) := by decide

theorem test_decode_mul : decodeTableWord 64 0xFFFFFFFF11010007 = some (.mul .none (.reg 0) (.imm 0xFFFFFFFF)) := by decide

theorem test_decode_div : decodeTableWord 64 0x0000000211050008 = some (.div .none (.reg 4) (.imm 2)) := by decide

theorem test_decode_and : decodeTableWord 64 0x00FF00FF11010009 = some (.and .none (.reg 0) (.imm 0x00FF00FF)) := by decide

theorem test_decode_or : decodeTableWord 64 0x0000000F1101000A = some (.or .none (.reg 0) (.imm 15)) := by decide

theorem test_decode_xor : decodeTableWord 32 0x0101000B = some (.xor .none (.reg 0) (.reg 0)) := by decide

theorem test_decode_shl : decodeTableWord 32 0x0201000C = some (.shl .none (.reg 0) (.reg 1)) := by decide

/-- shr r0 r1: arg2 2, arg1 1, ext 0, op 13. -/
theorem test_decode_shr : decode [0b00000010000000010000000000001101] = .ok (.shr .none (.reg 0) (.reg 1), []) := by rfl

/-- cmp 5 7: arg2 17, arg1 17, ext 0, op 14, then arg1's literal and arg2's. -/
theorem test_decode_cmp :
    decode [0b00010001000100010000000000001110, 5, 7] = .ok (.cmp .none (.imm 5) (.imm 7), []) := by rfl

theorem test_decode_clf : decodeTableWord 32 0x0000080F = some (.clf (.flag .z) .none .none) := by decide

/-- jmp.lt 12: arg2 0, arg1 17, ext 3, op 16, then the literal. -/
theorem test_decode_jmp :
    decode [0b00000000000100010000001100010000, 12] = .ok (.jmp (.flag .lt) (.imm 12) .none, []) := by rfl

theorem test_decode_inv : decodeTableWord 32 0x00020011 = some (.inv .none (.reg 1) .none) := by decide

theorem test_decode_ret : decodeTableWord 32 0x00000012 = some (.ret .none .none .none) := by decide

/-- sys 1: arg2 0, arg1 17, ext 0, op 19, then the literal. -/
theorem test_decode_sys :
    decode [0b00000000000100010000000000010011, 1] = .ok (.sys .none (.imm 1) .none, []) := by rfl

theorem test_decode_reserved_codes :
    decodeTableWord 32 0x12FF0900 = some (.nop (.reserved 9) (.reserved 255) (.reserved 18)) := by decide

theorem test_decode_unknown_opcode : decodeTableWord 32 0x00000014 = none := by decide

theorem test_encode_cmp : encode (.cmp .none (.imm 5) (.imm 7)) = [0x1111000E, 5, 7] := by decide

/-! ## One step: the vectors of 95_test_vectors.md, section 2 -/

/-- A task with four entries on each stack's buffer, all clear. -/
def task0 : Task :=
  { handle := 0, regs := Vector.replicate 16 0, flags := Flags.allClear, pc := 0, rpc := 0, sp := 0,
    ds := [0, 0, 0, 0], cs := [0, 0, 0, 0] }

def noFlags : Flags := Flags.allClear

/-- The VM that runs a task on an image of 16 words, the given ones and NOPs. -/
def vm (words : List Word) (t : Task) : State :=
  { State.init [] none Config.defaultParams with
    running := true
    code := some (CodeImage.ofWords (words ++ List.replicate (16 - words.length) 0)
      { initialCallStackSize := 4, initialDataStackSize := 4 })
    ring := [t]
    cur := some t.handle }

/-- The result and the current task after one step on a task. -/
def run (words : List Word) (t : Task) : Option (ResultCode × Task) :=
  match step (vm words t) with
  | .next s => s.currentTask.map (fun t' => (s.reply.code, t'))
  | .fault _ => none
  | .refused _ => none

/-- The reason why one step on a task is UNDEFINED. -/
def stops (words : List Word) (t : Task) : Option Fault :=
  match step (vm words t) with
  | .next _ => none
  | .fault r => some r
  | .refused _ => none

theorem test_nop_skips_two_literals : run [0x11110000, 1, 2] task0 = some (.ok, { task0 with pc := 3 }) := by decide

theorem test_mov_writes : run [0x11010002, 5] task0 =
    some (.ok, { task0 with pc := 2, regs := task0.regs.set 0 5, flags := { noFlags with nz := true } }) := by decide

theorem test_mov_destination_not_register : run [0x01110002, 5] task0 = some (.argNotReg, { task0 with pc := 2 }) := by
  decide

theorem test_end_clears_running : ((match step (vm [1] task0) with
    | .next s => some (s.running, s.reply.code)
    | _ => none) = some (false, .ok)) := by decide

theorem test_end_suppressed : ((match step (vm [0x101] task0) with
    | .next s => some (s.running, s.reply.code)
    | _ => none) = some (true, .ok)) := by decide

theorem test_push_range : run [0x03010003] { task0 with regs := ((task0.regs.set 0 1).set 1 2).set 2 3 } =
    some (.ok, { task0 with
      regs := ((task0.regs.set 0 1).set 1 2).set 2 3, pc := 1, sp := 3, ds := [1, 2, 3, 0] }) := by decide

theorem test_push_range_does_not_fit : run [0x02010003] { task0 with sp := 3 } =
    some (.stkOverflow, { task0 with sp := 3, pc := 1 }) := by decide

theorem test_pop_one : run [0x00060004] { task0 with sp := 2, ds := [11, 22, 0, 0] } =
    some (.ok, { task0 with pc := 1, sp := 1, ds := [11, 22, 0, 0], regs := task0.regs.set 5 22 }) := by decide

theorem test_pop_range : run [0x03010004] { task0 with sp := 3, ds := [1, 2, 3, 0] } =
    some (.ok, { task0 with
      pc := 1, sp := 0, ds := [1, 2, 3, 0], regs := ((task0.regs.set 0 1).set 1 2).set 2 3 }) := by decide

theorem test_add_wraps : run [0x11010005, 1] { task0 with regs := task0.regs.set 0 0x7FFFFFFF } =
    some (.ok, { task0 with
      pc := 2, regs := task0.regs.set 0 0x80000000, flags := { noFlags with nz := true } }) := by decide

theorem test_add_suppressed : run [0x11020705, 1] { task0 with regs := task0.regs.set 1 1 } =
    some (.ok, { task0 with pc := 2, regs := task0.regs.set 1 1 }) := by decide

theorem test_sub_wraps : run [0x11010006, 1] { task0 with regs := task0.regs.set 0 0x80000000 } =
    some (.ok, { task0 with
      pc := 2, regs := task0.regs.set 0 0x7FFFFFFF, flags := { noFlags with nz := true } }) := by decide

/-- 46341 squared is -2147479015. -/
theorem test_mul_low_word : run [0x01010007] { task0 with regs := task0.regs.set 0 46341 } =
    some (.ok, { task0 with
      pc := 1, regs := task0.regs.set 0 (BitVec.ofInt 32 (-2147479015)), flags := { noFlags with nz := true } }) := by
  decide

/-- -7 by 2 is -3. -/
theorem test_div_truncates : run [0x11050008, 2] { task0 with regs := task0.regs.set 4 (BitVec.ofInt 32 (-7)) } =
    some (.ok, { task0 with
      pc := 2, regs := task0.regs.set 4 (BitVec.ofInt 32 (-3)), flags := { noFlags with nz := true } }) := by decide

theorem test_div_by_zero : stops [0x11010008, 0] { task0 with regs := task0.regs.set 0 5 } = some .divByZero := by decide

theorem test_and : run [0x11010009, 0x00FF00FF] { task0 with regs := task0.regs.set 0 252645135 } =
    some (.ok, { task0 with pc := 2, regs := task0.regs.set 0 983055, flags := { noFlags with nz := true } }) := by
  decide

theorem test_or : run [0x1101000A, 0xF] { task0 with regs := task0.regs.set 0 (BitVec.ofInt 32 (-252645136)) } =
    some (.ok, { task0 with
      pc := 2, regs := task0.regs.set 0 (BitVec.ofInt 32 (-252645121)), flags := { noFlags with nz := true } }) := by
  decide

theorem test_xor_with_itself : run [0x0101000B] { task0 with regs := task0.regs.set 0 1234 } =
    some (.ok, { task0 with pc := 1, flags := { noFlags with z := true } }) := by decide

theorem test_shl_count_33 : run [0x1101000C, 33] { task0 with regs := task0.regs.set 0 3 } =
    some (.ok, { task0 with pc := 2, regs := task0.regs.set 0 6, flags := { noFlags with nz := true } }) := by decide

theorem test_shr_is_arithmetic : run [0x1101000D, 2] { task0 with regs := task0.regs.set 0 (BitVec.ofInt 32 (-16)) } =
    some (.ok, { task0 with
      pc := 2, regs := task0.regs.set 0 (BitVec.ofInt 32 (-4)), flags := { noFlags with nz := true } }) := by decide

theorem test_cmp_is_signed : run [0x1111000E, 0xFFFFFFFF, 1] task0 =
    some (.ok, { task0 with pc := 3, flags := { noFlags with ne := true, lt := true, le := true } }) := by decide

theorem test_cmp_is_sticky :
    run [0x1111000E, 7, 5] { task0 with flags := { noFlags with ne := true, lt := true, le := true } } =
      some (.ok, { task0 with
        pc := 3, flags := { noFlags with ne := true, lt := true, le := true, gt := true, ge := true } }) := by decide

theorem test_clf_one : run [0x0000040F] { task0 with flags := { noFlags with eq := true, le := true, ge := true } } =
    some (.ok, { task0 with pc := 1, flags := { noFlags with eq := true, ge := true } }) := by decide

theorem test_clf_reserved_clears_all :
    run [0x0000090F] { task0 with flags := { noFlags with eq := true, nz := true } } =
      some (.ok, { task0 with pc := 1 }) := by decide

theorem test_jmp_last_word : run [0x00110010, 15] task0 = some (.ok, { task0 with pc := 15 }) := by decide

theorem test_jmp_to_code_size : run [0x00110010, 16] task0 = some (.jmpOverflow, { task0 with pc := 2 }) := by decide

theorem test_inv_pushes : run [0x00020011] { task0 with regs := task0.regs.set 1 10, rpc := 1, cs := [4, 0, 0, 0] } =
    some (.ok, { task0 with regs := task0.regs.set 1 10, pc := 10, rpc := 2, cs := [4, 1, 0, 0] }) := by decide

theorem test_inv_overflow_leaves_the_entry : run [0x00110011, 16] task0 =
    some (.jmpOverflow, { task0 with pc := 2, rpc := 1, cs := [2, 0, 0, 0] }) := by decide

theorem test_ret_is_unconditional : run [0x00000112] { task0 with rpc := 1, cs := [5, 0, 0, 0] } =
    some (.ok, { task0 with pc := 5, rpc := 0, cs := [5, 0, 0, 0] }) := by decide

theorem test_ret_empty : run [0x00000012] task0 = some (.callStkUnderflow, { task0 with pc := 1 }) := by decide

theorem test_sys_without_handler : stops [0x00110013, 1] task0 = some .noSyscallHandler := by decide

theorem test_sys_suppressed : run [0x00110113, 1] task0 = some (.ok, { task0 with pc := 2 }) := by decide

theorem test_unknown_opcode_consumes_its_literal : run [0x001101FF, 7] task0 =
    some (.unknownInstruction, { task0 with pc := 2 }) := by decide

theorem test_reserved_ext_is_none : run [0x11010902, 3] task0 =
    some (.ok, { task0 with pc := 2, regs := task0.regs.set 0 3, flags := { noFlags with nz := true } }) := by decide

/-! ## The cycle and the host's operations: section 3 of the vectors -/

/-- Vector C-1. -/
theorem test_cycle_after_init : step State.reset = .next (State.reset.answer .notRunning) := by rfl

/-- Vector C-7. -/
theorem test_load_refused_memory : serve (.load [0, 0, 1] ⟨0, 0⟩ none none) State.reset =
    .next (State.reset.answer .badAlloc) := by rfl

/-- Vector S-1: the switch after the last task goes to head. -/
theorem test_switch_wraps :
    (match serve .switchTask { vm [] task0 with ring := [task0, { task0 with handle := 1 }], cur := some 1 } with
      | .next s => s.cur
      | _ => none) = some 0 := by decide

/-- Vector S-2. -/
theorem test_switch_blocked : serve .switchTask { vm [] task0 with tsb := true } =
    .next ({ vm [] task0 with tsb := true }.answer .taskSwitchBlocked) := by rfl

/-- Vector S-7. -/
theorem test_remove_current : serve (.remove 0) (vm [] task0) = .fault .hostProtocol := by rfl

/-- The instruction that is placed is the one the next step runs, right after reset: mov r0 5. -/
theorem test_withFetchWord_runs :
    (match step (State.reset.withFetchWord 64 0x0000000511010002) with
      | .next s => s.currentTask.map (fun t => (t.regs[0], t.pc, s.reply.code))
      | _ => none) = some (5, 2, .ok) := by decide

/-- END ends a run cleanly, whether its cycle is waiting or runs because nothing waits (R160). -/
theorem test_cleanEnd_end : (∃ s', cleanEnd (vm [1] task0) s') ∧
    ∃ s', cleanEnd { vm [1] task0 with calls := [.cycle, .unload] } s' :=
  ⟨⟨_, .inl rfl, rfl, rfl, rfl, _, _, _, _, ⟨rfl, rfl, _, rfl⟩, rfl⟩,
    _, .inr ⟨_, rfl⟩, rfl, rfl, rfl, _, _, _, _, ⟨rfl, rfl, _, rfl⟩, rfl⟩

/-- An END at pc while the host's block is served ends nothing. -/
theorem test_cleanEnd_is_a_cycle (s' : State) : ¬ cleanEnd { vm [1] task0 with calls := [.block true] } s' := by
  rintro ⟨h | ⟨_, h⟩, _⟩ <;> cases h

/-- CODE_OVERFLOW is an error end. -/
theorem test_errorEnd_code_overflow : ∃ s', errorEnd (vm [] { task0 with pc := 16 }) s' := ⟨_, .inl rfl, rfl, rfl, rfl⟩

/-! ## The assembler: examples EX2, EX3 and EX6 of the vectors -/

theorem test_assemble_ex2 : assemble "mov r0 5\ncmp r0 7\nmov.eq r0 99\nend".toList =
    .ok [0x11010002, 5, 0x1101000E, 7, 0x11010102, 0x63, 1] := by decide

theorem test_assemble_ex3 : assemble "inv fn\nend\nfn:\nmov r1 42\nret".toList =
    .ok [0x00110011, 3, 1, 0x11020002, 0x2A, 0x12] := by decide

/-- The model's choice (log entry 28): a carriage return is part of its token, so the mnemonic here is a label. -/
theorem test_assemble_carriage_return : assemble "end\r\nend".toList = .ok [1] := by decide

/-- The model's choice (log entry 30): a mnemonic with ':' defines a label of its name. -/
theorem test_assemble_mnemonic_with_colon : assemble "end: jmp end".toList = .ok [0x00110010, 0] := by decide

/-- The model's choice (log entry 31): PUSH and POP take any first operand. -/
theorem test_assemble_push_pop_any : assemble "pop 5 push 5 r1".toList =
    .ok [0x00110004, 5, 0x02110003, 5] := by decide

theorem test_assemble_ex6 : assemble "jmp nowhere\nend".toList = .error .undefinedLabel := by decide

/-! ## Witnesses: a state and operands that meet the hypotheses of each obligation, clause by clause -/

/-- A task whose flag EQ is true: `.eq` holds, `.ne` does not. -/
def taskEq : Task := { task0 with flags := { noFlags with eq := true } }

/-- A task with one entry on each stack. -/
def taskFull : Task := { taskEq with sp := 1, ds := [7, 0, 0, 0], rpc := 1, cs := [3, 0, 0, 0] }

/-- A second task. -/
def task1 : Task := { task0 with handle := 1 }

/-- Three tasks in the ring. -/
def threeTasks (cur : Option Handle) : State :=
  { vm [] task0 with ring := [task0, task1, { task0 with handle := 2 }], cur := cur }

theorem witness_DecodeOfEncodeGivesInstrBack :
    (Instr.mov (.reserved 9) (.reserved 18) (.imm 0xFFFFFFFF)).wellFormed = true ∧
    (Instr.sys (.reserved 255) (.reg 15) (.reserved 255)).wellFormed = true := by decide

theorem witness_DecodedInstrEncodesToItsWords :
    decode [0x11110913, 1, 2, 3] = .ok (.sys (.reserved 9) (.imm 1) (.imm 2), [3]) := by rfl

/-- Opcode 19 and opcode 20, each with exactly the literals it asks for. -/
theorem witness_LiteralsFollowTheArgumentBytes :
    literalCount 0x11110013 ≤ [1, 2].length ∧ (byteOf 0x11110013 0).toNat < 20 ∧
    literalCount 0x11120014 ≤ [(1 : Word)].length ∧ 20 ≤ (byteOf 0x11120014 0).toNat := by decide

theorem witness_ArgumentTypeCodes :
    (0 : Byte).toNat = 0 ∧ (1 ≤ (1 : Byte).toNat ∧ (1 : Byte).toNat ≤ 16) ∧
    (1 ≤ (16 : Byte).toNat ∧ (16 : Byte).toNat ≤ 16) ∧ (17 : Byte).toNat = 17 ∧ 18 ≤ (18 : Byte).toNat ∧
    18 ≤ (255 : Byte).toNat := by decide

theorem witness_PredicateFollowsExtByte : 9 ≤ (9 : Byte).toNat ∧ 9 ≤ (255 : Byte).toNat := by decide

/-- Byte 3 of word 1 is the most significant one. -/
theorem witness_LoadedImageReadsAsItsWords :
    (CodeImage.ofWords [1, 0x12345678] ⟨0, 0⟩).readByte (4 * 1 + 3) = some 0x12 := by decide

theorem witness_StepRunsDecodedInstruction :
    (vm [0x11010002, 5] task0).cycleIsNext ∧ (vm [0x11010002, 5] task0).fetches task0 (.mov .none (.reg 0) (.imm 5)) :=
  ⟨⟨rfl, rfl⟩, rfl, rfl, _, rfl⟩

theorem witness_StepServesTheFirstWaitingOperation :
    State.reset.calls = [] ∧ ({ State.reset with calls := [HostCall.unload] } : State).calls = .unload :: [] := by decide

theorem witness_CycleWhileNotRunningChangesNothing : State.reset.cycleIsNext ∧ State.reset.running = false :=
  ⟨⟨rfl, rfl⟩, rfl⟩

/-- pc equal to CODE_SIZE, and far past it. -/
theorem witness_CodeOverflowHaltsEveryTask :
    (vm [] { task0 with pc := 16 }).cycleIsNext ∧ (vm [] { task0 with pc := 16 }).code.isSome = true ∧
    (vm [] { task0 with pc := 16 }).running = true ∧
    (vm [] { task0 with pc := 16 }).currentTask = some { task0 with pc := 16 } ∧
    (vm [] { task0 with pc := 16 }).codeSize ≤ ({ task0 with pc := 16 } : Task).pc.toNat ∧
    (vm [] { task0 with pc := 16 }).codeSize ≤ ({ task0 with pc := 0xFFFFFFFF } : Task).pc.toNat :=
  ⟨⟨rfl, rfl⟩, by decide⟩

/-- Opcode 20 with two literals. -/
theorem witness_UnknownOpcodeIsReported :
    (vm [0x11110014, 1, 2] task0).cycleIsNext ∧ (vm [0x11110014, 1, 2] task0).running = true ∧
    (vm [0x11110014, 1, 2] task0).currentTask = some task0 ∧
    (vm [0x11110014, 1, 2] task0).fetchWords task0.pc.toNat = 0x11110014 :: [1, 2] ∧
    20 ≤ (byteOf 0x11110014 0).toNat ∧ literalCount 0x11110014 ≤ [(1 : Word), 2].length :=
  ⟨⟨rfl, rfl⟩, by decide⟩

/-- The last word of the image asks for a literal; and CUR is null. -/
theorem witness_CycleUndefinedCases :
    (let s := vm (List.replicate 15 0 ++ [0x11010002]) { task0 with pc := 15 };
      s.cycleIsNext ∧ s.running = true ∧ s.currentTask = some { task0 with pc := 15 } ∧
      s.fetchWords ({ task0 with pc := 15 } : Task).pc.toNat = 0x11010002 :: [] ∧
      ([] : List Word).length < literalCount 0x11010002) ∧
    (let s := { vm [] task0 with cur := none };
      s.cycleIsNext ∧ s.running = true ∧ s.currentTask = none) :=
  ⟨⟨⟨rfl, rfl⟩, by decide⟩, ⟨rfl, rfl⟩, by decide⟩

/-- An image of the greatest size, and an empty one. -/
theorem witness_LoadStartsTaskZero :
    State.reset.fault = none ∧ State.reset.code = none ∧ (List.replicate (2 ^ 31 - 1) (0 : Word)).length ≤ 2 ^ 31 - 1 ∧
    ([] : List Word).length ≤ 2 ^ 31 - 1 :=
  ⟨rfl, rfl, by rw [List.length_replicate], by decide⟩

theorem witness_CreateAppendsAFreshTask :
    ∃ img, (vm [] task0).fault = none ∧ (vm [] task0).code = some img ∧ (vm [] task0).task 1 = none :=
  ⟨_, rfl, rfl, by decide⟩

/-- A handle that is not there; the middle task while head is current; the current task. -/
theorem witness_RemoveUnlinksATask :
    (threeTasks (some 0)).fault = none ∧ ((threeTasks (some 0)).ring.map Task.handle).Nodup ∧
    (threeTasks (some 0)).task 3 = none ∧
    (threeTasks (some 0)).ring = [task0] ++ task1 :: [{ task0 with handle := 2 }] ∧ task1.handle = 1 ∧
    (threeTasks (some 0)).cur ≠ some 1 ∧ (threeTasks (some 0)).task 0 = some task0 ∧ (threeTasks (some 0)).cur = some 0 := by
  decide

/-- Blocked; from null; from the head and from the middle; from the last. -/
theorem witness_SwitchFollowsTheRing :
    (threeTasks none).fault = none ∧ ((threeTasks none).ring.map Task.handle).Nodup ∧
    ({ threeTasks none with tsb := true } : State).tsb = true ∧
    (threeTasks none).tsb = false ∧ (threeTasks none).cur = none ∧
    (threeTasks (some 0)).ring = [] ++ task0 :: task1 :: [{ task0 with handle := 2 }] ∧
    (threeTasks (some 0)).cur = some task0.handle ∧
    (threeTasks (some 1)).ring = [task0] ++ task1 :: { task0 with handle := 2 } :: [] ∧
    (threeTasks (some 1)).cur = some task1.handle ∧
    (threeTasks (some 2)).ring = [task0, task1] ++ [{ task0 with handle := 2 }] ∧
    (threeTasks (some 2)).cur = some ({ task0 with handle := 2 } : Task).handle := by decide

theorem witness_OnlyTheHostSeesTsb :
    (vm [] task0).fault = none ∧
    exec (.nop .none .none .none) (vm [] task0) = .next ((vm [] task0).answer .ok) ∧
    exec (.sys .none (.imm 1) .none) (vm [] task0) = .fault .noSyscallHandler := ⟨rfl, rfl, rfl⟩

theorem witness_UnloadReleasesEverything : (vm [] task0).fault = none ∧ (vm [] task0).code.isSome = true := by decide

theorem witness_HostOperationsWithoutEffect :
    State.reset.fault = none ∧ State.reset.code = none ∧
    (List.replicate (2 ^ 31 - 1) (0 : Word)).length ≤ 2 ^ 31 - 1 ∧ (vm [] task0).fault = none ∧
    ∃ img, (vm [] task0).code = some img :=
  ⟨rfl, rfl, by rw [List.length_replicate], rfl, _, rfl⟩

theorem witness_FaultHasNoFurtherStep :
    ({ vm [] task0 with fault := some .divByZero } : State).fault = some .divByZero := by decide

/-- A remove, which keeps the other task; a switch, which keeps the ring and TSB; a block, which keeps CUR. -/
theorem witness_HaltedUntilUnload :
    (let s := { vm [] task0 with running := false, ring := [task0, task1] };
      s.isHalted ∧ s.fault = none ∧ HostCall.remove 1 ≠ .unload ∧
      (∃ s', serve (.remove 1) s = .next s') ∧ s.task 0 = some task0 ∧ HostCall.remove 1 ≠ .remove 0 ∧
      HostCall.switchTask ≠ .unload ∧ (∃ s', serve .switchTask s = .next s') ∧
      (∀ pc seeds alloc, HostCall.switchTask ≠ .create pc seeds alloc) ∧ (∀ h, HostCall.switchTask ≠ .remove h) ∧
      (∀ b, HostCall.switchTask ≠ .block b) ∧ HostCall.block true ≠ .unload ∧
      (∃ s', serve (.block true) s = .next s') ∧ HostCall.block true ≠ .switchTask) :=
  ⟨⟨rfl, rfl⟩, rfl, by decide, ⟨_, rfl⟩, by decide, by decide, by decide, ⟨_, rfl⟩, by simp, by simp, by simp, by decide,
    ⟨_, rfl⟩, by decide⟩

/-- A current task, a predicate that holds and one that does not: the hypotheses of END, of the gated instructions and of
CLF and RET. -/
theorem witness_EndClearsRunning :
    (vm [] taskEq).currentTask = some taskEq ∧ taskEq.flags.holds (.flag .eq) = true ∧
    taskEq.flags.holds (.flag .ne) = false := by decide

/-- A source in the destination itself, and a literal. -/
theorem witness_MovWritesTheSource :
    (vm [] taskEq).currentTask = some taskEq ∧ taskEq.flags.holds (.flag .eq) = true ∧
    argValue taskEq (.reg 15) = some 0 ∧ argValue taskEq (.imm 0xFFFFFFFF) = some 0xFFFFFFFF := by decide

theorem witness_AddSubMulWrap :
    (vm [] taskEq).currentTask = some taskEq ∧ taskEq.flags.holds .none = true ∧
    argValue taskEq (.imm 1) = some 1 := by decide

/-- -2^31 in R0, by 1, by 0 and by -1. -/
theorem witness_DivTruncatesTowardZero :
    (let t := { taskEq with regs := task0.regs.set 0 0x80000000 };
      (vm [] t).currentTask = some t ∧ t.flags.holds .none = true ∧ argValue t (.imm 1) = some 1 ∧
      (1 : Word) ≠ 0 ∧ ¬ (t.regs[(0 : RegNum)].toInt = -(2 ^ 31) ∧ (1 : Word).toInt = -1) ∧
      argValue t (.imm 0) = some 0 ∧ argValue t (.imm 0xFFFFFFFF) = some 0xFFFFFFFF ∧
      t.regs[(0 : RegNum)].toInt = -(2 ^ 31) ∧ (0xFFFFFFFF : Word).toInt = -1) := by decide

theorem witness_BitwiseResults :
    (vm [] taskEq).currentTask = some taskEq ∧ taskEq.flags.holds (.reserved 9) = true ∧
    argValue taskEq (.imm 0x00FF00FF) = some 0x00FF00FF ∧ 31 < 32 := by decide

/-- Counts 31 and 32. -/
theorem witness_ShiftResults :
    (vm [] taskEq).currentTask = some taskEq ∧ taskEq.flags.holds .none = true ∧
    argValue taskEq (.imm 31) = some 31 ∧ argValue taskEq (.imm 32) = some 32 := by decide

theorem witness_RegisterDestinationShapeErrors :
    isRegDest (.mov (.flag .eq) (.imm 5) .none) = true ∧ isRegDest (.shr (.flag .ne) .none (.reg 0)) = true ∧
    (vm [] taskEq).currentTask = some taskEq ∧ (∀ d, (Instr.mov (.flag .eq) (.imm 5) .none).arg1 ≠ .reg d) ∧
    taskEq.flags.holds (Instr.mov (.flag .eq) (.imm 5) .none).ext = true ∧
    (∀ d, (Instr.shr (.flag .ne) .none (.reg 0)).arg1 ≠ .reg d) ∧
    taskEq.flags.holds (Instr.shr (.flag .ne) .none (.reg 0)).ext = false ∧
    (Instr.div .none (.reg 0) (.reserved 18)).arg1 = .reg 0 ∧
    argIsNone (Instr.div .none (.reg 0) (.reserved 18)).arg2 = true := by decide

/-- Room for exactly one entry. -/
theorem witness_PushOneValue :
    (let t := { taskEq with sp := 3 };
      (vm [] t).currentTask = some t ∧ t.flags.holds .none = true ∧ argValue t (.imm 7) = some 7 ∧
      argIsNone .none = true ∧ t.sp < t.ds.length) := by decide

/-- R12 .. R15 exactly fill the four entries. -/
theorem witness_PushRange :
    (vm [] taskEq).currentTask = some taskEq ∧ taskEq.flags.holds .none = true ∧ (12 : RegNum) < 15 ∧
    taskEq.sp + ((15 : RegNum).val - (12 : RegNum).val + 1) ≤ taskEq.ds.length := by decide

/-- A full stack; one entry too few; Rlo equal to Rhi; a form that is no form. -/
theorem witness_PushErrors :
    (let t := { taskEq with sp := 4 };
      (vm [] t).currentTask = some t ∧ argValue t (.imm 1) = some 1 ∧ argIsNone .none = true ∧ t.ds.length ≤ t.sp ∧
      t.flags.holds (.flag .eq) = true) ∧
    (let t := { taskEq with sp := 3 };
      (vm [] t).currentTask = some t ∧ (0 : RegNum) < 1 ∧
      t.ds.length < t.sp + ((1 : RegNum).val - (0 : RegNum).val + 1)) ∧
    (2 : RegNum) ≤ 2 ∧ taskEq.flags.holds (.flag .ne) = false ∧
    ¬ pushAccepts (.imm 1) (.imm 2) ∧ ∀ lo hi, ¬ (Arg.imm 1 = .reg lo ∧ Arg.imm 2 = .reg hi) := by
  refine ⟨by decide, by decide, by decide, by decide, ?_, by simp⟩
  simp [pushAccepts, argIsNone]

theorem witness_PopOneRegister :
    (vm [] taskFull).currentTask = some taskFull ∧ taskFull.flags.holds .none = true ∧ argIsNone (.reserved 18) = true ∧
    0 < taskFull.sp ∧ taskFull.ds[taskFull.sp - 1]? = some 7 := by decide

/-- R12 .. R15 from exactly four entries, with each value of POP_SETS_NZZ. -/
theorem witness_PopRange :
    (let t := { taskEq with sp := 4 };
      (vm [] t).currentTask = some t ∧ t.flags.holds .none = true ∧ (12 : RegNum) < 15 ∧
      (15 : RegNum).val - (12 : RegNum).val + 1 ≤ t.sp ∧ t.sp ≤ t.ds.length ∧
      (vm [] t).params.popSetsNzz = false) ∧
    (let t := { taskEq with sp := 4 };
      let s := { vm [] t with params := { nzzOnSuppressed := false, popSetsNzz := true } };
      s.currentTask = some t ∧ s.params.popSetsNzz = true) := by decide

/-- An empty stack; one entry too few; Rlo equal to Rhi; a form that is no form. -/
theorem witness_PopErrors :
    (vm [] taskEq).currentTask = some taskEq ∧ argIsNone .none = true ∧ taskEq.sp = 0 ∧
    taskEq.flags.holds (.flag .eq) = true ∧
    (vm [] taskFull).currentTask = some taskFull ∧ (0 : RegNum) < 1 ∧
    taskFull.sp < (1 : RegNum).val - (0 : RegNum).val + 1 ∧ (2 : RegNum) ≤ 2 ∧
    ¬ popAccepts (.imm 1) .none ∧ ∀ lo hi, ¬ (Arg.imm 1 = .reg lo ∧ Arg.none = .reg hi) := by
  refine ⟨by decide, by decide, by decide, by decide, by decide, by decide, by decide, by decide, ?_, by simp⟩
  simp [popAccepts]

/-- push r0 r1 on an empty stack, and pop r0 r1 in the very state it leaves. -/
theorem witness_PushThenPopRestoresRegisters :
    ∃ (s1 s2 : State) (t1 t2 : Task), (vm [] taskEq).currentTask = some taskEq ∧ taskEq.flags.holds .none = true ∧
      (0 : RegNum) < 1 ∧
      exec (.push .none (.reg 0) (.reg 1)) (vm [] taskEq) = .next s1 ∧ s1.reply.code = .ok ∧
      s1.currentTask = some t1 ∧ s2.currentTask = some t2 ∧ t2.flags.holds .none = true ∧ t2.sp = t1.sp ∧
      ∀ k, taskEq.sp ≤ k → k ≤ taskEq.sp + ((1 : RegNum).val - (0 : RegNum).val) → t2.ds[k]? = t1.ds[k]? := by
  have h : exec (.push .none (.reg 0) (.reg 1)) (vm [] taskEq) =
      .next (((vm [] taskEq).putTask ({ taskEq with sp := 2 } : Task)).answer .ok) := by rfl
  exact ⟨_, ((vm [] taskEq).putTask ({ taskEq with sp := 2 } : Task)).answer .ok, ({ taskEq with sp := 2 } : Task),
    ({ taskEq with sp := 2 } : Task),
    by decide, by decide, by decide, h, rfl, rfl, rfl, rfl, rfl, fun _ _ _ => rfl⟩

theorem witness_CmpSetsTheRelationsThatHold :
    (vm [] taskEq).currentTask = some taskEq ∧ taskEq.flags.holds .none = true ∧
    argValue taskEq (.imm 0x80000000) = some 0x80000000 ∧ argValue taskEq (.imm 0x7FFFFFFF) = some 0x7FFFFFFF := by decide

theorem witness_ClfClearsTheSelectedFlags :
    (vm [] taskEq).currentTask = some taskEq ∧ (∀ g, Ext.none ≠ .flag g) ∧ (∀ g, Ext.reserved 9 ≠ .flag g) ∧
    Flag.ne ≠ Flag.eq := ⟨by decide, by simp, by simp, by decide⟩

/-- Targets 0 and CODE_SIZE - 1. -/
theorem witness_JmpSetsPc :
    (vm [] taskEq).currentTask = some taskEq ∧ taskEq.flags.holds .none = true ∧ argValue taskEq (.imm 0) = some 0 ∧
    0 ≤ (0 : Word).toInt ∧ argValue taskEq (.imm 15) = some 15 ∧ 0 ≤ (15 : Word).toInt ∧
    (15 : Word).toInt < (vm [] taskEq).codeSize := by decide

/-- One free entry on the call stack. -/
theorem witness_InvPushesAndBranches :
    (let t := { taskEq with rpc := 3 };
      (vm [] t).currentTask = some t ∧ t.flags.holds .none = true ∧ argValue t (.imm 15) = some 15 ∧
      t.rpc < t.cs.length ∧ 0 ≤ (15 : Word).toInt ∧ (15 : Word).toInt < (vm [] t).codeSize) := by decide

/-- Targets CODE_SIZE and -2^31; a full call stack and one free entry. -/
theorem witness_BranchErrors :
    (let t := { taskEq with rpc := 3 };
      (vm [] t).currentTask = some t ∧ t.flags.holds .none = true ∧ argValue t (.imm 16) = some 16 ∧
      ((vm [] t).codeSize : Int) ≤ (16 : Word).toInt ∧ argValue t (.imm 0x80000000) = some 0x80000000 ∧
      (0x80000000 : Word).toInt < 0 ∧ t.rpc < t.cs.length) ∧
    (let t := { taskEq with rpc := 4 };
      (vm [] t).currentTask = some t ∧ argValue t (.imm 16) = some 16 ∧ t.rpc = t.cs.length) := by decide

theorem witness_RetPopsPc :
    (vm [] taskEq).currentTask = some taskEq ∧ taskEq.rpc = 0 ∧ (vm [] taskFull).currentTask = some taskFull ∧
    0 < taskFull.rpc ∧ taskFull.cs[taskFull.rpc - 1]? = some 3 := by decide

theorem witness_SysTakesTheHandlersAnswer :
    (let s := { vm [] taskEq with handler := some 0 };
      s.currentTask = some taskEq ∧ taskEq.flags.holds .none = true ∧ argValue taskEq (.imm 1) = some 1 ∧
      s.handler = some 0) := by decide

theorem witness_SuppressedInstructionsHaveNoEffect :
    (vm [] taskEq).currentTask = some taskEq ∧ taskEq.flags.holds (.flag .ne) = false ∧
    pushAccepts (.reg 0) (.reg 1) ∧ popAccepts (.reg 14) (.reg 15) ∧ argIsNone (.imm 1) = false ∧
    argIsNone (.reg 0) = false ∧ isRegDest (.div (.flag .ne) (.reg 0) (.imm 0)) = true ∧
    taskEq.flags.holds (Instr.div (.flag .ne) (.reg 0) (.imm 0)).ext = false ∧
    (Instr.div (.flag .ne) (.reg 0) (.imm 0)).arg1 = .reg 0 ∧
    argValue taskEq (Instr.div (.flag .ne) (.reg 0) (.imm 0)).arg2 = some 0 :=
  ⟨by decide, by decide, .inr (.inr ⟨0, 1, by decide, rfl, rfl⟩), .inr ⟨14, 15, by decide, rfl, rfl⟩, by decide⟩

theorem witness_MissingValueOrHandlerIsUndefined :
    (vm [] taskEq).currentTask = some taskEq ∧ argIsNone .none = true ∧ argIsNone (.reserved 18) = true ∧
    argIsNone (.imm 1) = false ∧ taskEq.flags.holds (.flag .eq) = true ∧ (vm [] taskEq).handler = none := by decide

/-- A push: the hypotheses of the statements about every cycle. -/
theorem witness_CycleLeavesOthersUnchanged :
    (vm [0x00110003, 7] task0).cycleIsNext ∧ ∃ s', step (vm [0x00110003, 7] task0) = .next s' :=
  ⟨⟨rfl, rfl⟩, _, rfl⟩

/-- A push writes the data stack, a call the call stack. -/
theorem witness_OnlyPushAndInvWriteMemory :
    (run [0x00110003, 7] task0).map (fun p => p.2.ds) = some [7, 0, 0, 0] ∧
    (run [0x00110011, 3] task0).map (fun p => p.2.cs) = some [2, 0, 0, 0] ∧
    (vm [0x00110003, 7] task0).task 0 = some task0 := by decide

/-- A NOP of a task whose EQ is true. -/
theorem witness_FlagsAreSticky :
    (vm [] taskEq).cycleIsNext ∧ (∃ s' t', step (vm [] taskEq) = .next s' ∧ s'.task 0 = some t') ∧
    (∀ t e a b, ¬ (vm [] taskEq).fetches t (.clf e a b)) ∧ (vm [] taskEq).task 0 = some taskEq ∧
    taskEq.flags.get .eq = true := by
  refine ⟨⟨rfl, rfl⟩, ⟨_, _, rfl, rfl⟩, ?_, by decide, by decide⟩
  rintro t e a b ⟨_, ht, rest, hd⟩
  cases (show (vm [] taskEq).currentTask = some taskEq from rfl).symm.trans ht
  cases (show decode ((vm [] taskEq).fetchWords taskEq.pc.toNat) = .ok (.nop .none .none .none, [0, 0]) from rfl).symm.trans hd

theorem witness_FlagsAreWrittenOnlyAsStated :
    (vm [0x00060004] taskFull).cycleIsNext ∧ (vm [0x00060004] taskFull).fetches taskFull (.pop .none (.reg 5) .none) ∧
    (∃ s' t', step (vm [0x00060004] taskFull) = .next s' ∧ s'.currentTask = some t') ∧
    (vm [0x00060004] taskFull).params.popSetsNzz = false ∧ isRegDest (.pop .none (.reg 5) .none) = false :=
  ⟨⟨rfl, rfl⟩, ⟨rfl, rfl, _, rfl⟩, ⟨_, _, rfl, rfl⟩, rfl, rfl⟩

/-- END; and a push of a bad range, whose error leaves RUNNING. -/
theorem witness_OnlyEndAndCodeOverflowChangeRunning :
    (∃ s', step (vm [1] task0) = .next s' ∧ s'.running ≠ (vm [1] task0).running) ∧
    ∃ s', (vm [0x03030003] task0).cycleIsNext ∧ step (vm [0x03030003] task0) = .next s' ∧
      (vm [0x03030003] task0).running = true ∧ (vm [0x03030003] task0).currentTask = some task0 ∧
      (vm [0x03030003] task0).fetchWords task0.pc.toNat = 0x03030003 :: [0, 0] ∧ s'.reply.code ≠ .ok :=
  ⟨⟨_, rfl, by decide⟩, _, ⟨rfl, rfl⟩, rfl, rfl, by decide, by decide, by decide⟩

/-- A call to CODE_SIZE, which leaves its entry. -/
theorem witness_ErrorsLeaveTheTaskAsItWas :
    ∃ s', (vm [0x00110011, 16] task0).cycleIsNext ∧ (vm [0x00110011, 16] task0).running = true ∧
      (vm [0x00110011, 16] task0).currentTask = some task0 ∧ step (vm [0x00110011, 16] task0) = .next s' ∧
      s'.reply.code ≠ .ok ∧ s'.reply.code ≠ .codeOverflow :=
  ⟨_, ⟨rfl, rfl⟩, rfl, by decide, rfl, by decide, by decide⟩

/-- A call, a return, and a branch whose predicate is false. -/
theorem witness_PcAndCallDepthAfterACycle :
    (∃ s' t', (vm [0x00110011, 3] taskEq).cycleIsNext ∧
      (vm [0x00110011, 3] taskEq).fetches taskEq (.inv .none (.imm 3) .none) ∧
      step (vm [0x00110011, 3] taskEq) = .next s' ∧ s'.currentTask = some t' ∧ s'.reply.code = .ok ∧
      taskEq.flags.holds .none = true) ∧
    (∃ s' t', (vm [0x00000012] taskFull).fetches taskFull (.ret .none .none .none) ∧
      step (vm [0x00000012] taskFull) = .next s' ∧ s'.currentTask = some t' ∧ s'.reply.code = .ok ∧
      taskFull.cs[taskFull.rpc - 1]? = some 3) ∧
    (∃ s' t', (vm [0x00110210, 3] taskEq).fetches taskEq (.jmp (.flag .ne) (.imm 3) .none) ∧
      step (vm [0x00110210, 3] taskEq) = .next s' ∧ s'.currentTask = some t' ∧ s'.reply.code = .ok ∧
      taskEq.flags.holds (.flag .ne) = false) :=
  ⟨⟨_, _, ⟨rfl, rfl⟩, ⟨rfl, rfl, _, rfl⟩, rfl, rfl, rfl, rfl⟩,
    ⟨_, _, ⟨rfl, rfl, _, rfl⟩, rfl, rfl, rfl, rfl⟩, ⟨_, _, ⟨rfl, rfl, _, rfl⟩, rfl, rfl, rfl, rfl⟩⟩

/-- mov.ne r0 99, EQ alone being true, with each value of NZZ_ON_SUPPRESSED. -/
theorem witness_SuppressedInstructionConsumesItsLiterals :
    (∃ s', (vm [0x11010202, 99] taskEq).cycleIsNext ∧
      (vm [0x11010202, 99] taskEq).fetches taskEq (.mov (.flag .ne) (.reg 0) (.imm 99)) ∧
      taskEq.flags.holds (Instr.mov (.flag .ne) (.reg 0) (.imm 99)).ext = false ∧
      (∀ e a b, Instr.mov (.flag .ne) (.reg 0) (.imm 99) ≠ .clf e a b ∧
        Instr.mov (.flag .ne) (.reg 0) (.imm 99) ≠ .ret e a b) ∧
      step (vm [0x11010202, 99] taskEq) = .next s' ∧ (vm [0x11010202, 99] taskEq).params.nzzOnSuppressed = false) ∧
    ∃ s s', s = { vm [0x11010202, 99] taskEq with params := { nzzOnSuppressed := true, popSetsNzz := false } } ∧
      s.cycleIsNext ∧ s.fetches taskEq (.mov (.flag .ne) (.reg 0) (.imm 99)) ∧ step s = .next s' ∧
      s.params.nzzOnSuppressed = true ∧ isRegDest (.mov (.flag .ne) (.reg 0) (.imm 99)) = true :=
  ⟨⟨_, ⟨rfl, rfl⟩, ⟨rfl, rfl, _, rfl⟩, rfl, by simp, rfl, rfl⟩,
    _, _, rfl, ⟨rfl, rfl⟩, ⟨rfl, rfl, _, rfl⟩, rfl, rfl, rfl⟩

/-- The same task alone and beside another one: a cycle that goes on, and one that is UNDEFINED. -/
theorem witness_CycleIsBlindToOtherTasks :
    ({ vm [0x00110003, 7] task0 with ring := [task1, task0] } : State).currentTask =
      (vm [0x00110003, 7] task0).currentTask ∧
    (∃ a, cycle (vm [0x00110003, 7] task0) = .next a) ∧
    cycle (vm [0x11010008, 0] task0) = .fault .divByZero := ⟨by decide, ⟨_, rfl⟩, by rfl⟩

theorem vm_inv (words : List Word) (t : Task) (hb : t.stacksInBounds) (hl : words.length ≤ 16) : (vm words t).Inv where
  handles := List.nodup_singleton _
  bounds := by
    intro u hu
    rw [List.mem_singleton.mp hu]
    exact hb
  idle h := by cases h
  loaded img h := by
    cases h
    exact ⟨CodeImage.ofWords_wf _ _ (by simp [Config.maxCodeSize]; omega), t, by simp [vm, State.currentTask, State.task]⟩

theorem witness_StepKeepsTheInvariant :
    (vm [0x00110003, 7] task0).Inv ∧ ∃ s', step (vm [0x00110003, 7] task0) = .next s' :=
  ⟨vm_inv _ _ ⟨by decide, by decide⟩ (by decide), _, rfl⟩

/-- A call by a task whose one return address is CODE_SIZE. -/
theorem witness_CycleKeepsPcsWithinTheCode :
    ∃ s', (vm [0x00110011, 3] { taskFull with cs := [16, 0, 0, 0] }).Inv ∧
      (∀ t ∈ (vm [0x00110011, 3] { taskFull with cs := [16, 0, 0, 0] }).ring, t.pcsInBounds 16) ∧
      (vm [0x00110011, 3] { taskFull with cs := [16, 0, 0, 0] }).cycleIsNext ∧
      step (vm [0x00110011, 3] { taskFull with cs := [16, 0, 0, 0] }) = .next s' := by
  refine ⟨_, vm_inv _ _ ⟨by decide, by decide⟩ (by decide), ?_, ⟨rfl, rfl⟩, rfl⟩
  intro t ht
  rw [List.mem_singleton.mp ht]
  refine ⟨by decide, ?_⟩
  intro k hk
  have : k = 0 := by
    have : k < 1 := hk
    omega
  subst this
  exact ⟨16, rfl, by decide⟩

end Sys2Proof.Tests
end

section
/-! PROOFS. A recorded UNDEFINED outcome is the end (00_scope.md R11, 10_state.md R41, decision D31): once FAULT holds a
reason, every operation of the host and every step answers that reason. -/

namespace Sys2Proof.Machine

/-- The record of an UNDEFINED outcome is all that it changes: with the old FAULT put back, the state is the old one. -/
theorem State.latch_fault_restore (s : State) (r : Fault) :
    { s.latch (.fault r) with fault := s.fault } = s := rfl

/-- While FAULT is set no operation of the host has a step (R41). -/
theorem serve_of_fault {s : State} {r : Fault} (h : s.fault = some r) (c : HostCall) : serve c s = .fault r := by
  unfold serve
  rw [h]

/-- While FAULT is set the machine has no step, whether an operation waits or the host drives a cycle: taking the
operation off the list leaves FAULT as it is. -/
theorem step_of_fault {s : State} {r : Fault} (h : s.fault = some r) : step s = .fault r := by
  unfold step
  split
  case h_1 => exact serve_of_fault h .cycle
  case h_2 c rest _ => exact serve_of_fault (s := { s with calls := rest }) h c

/-- Settles O23: the latch records the reason and nothing else, and both ways to go on answer the recorded reason. -/
theorem faultHasNoFurtherStep : Obligations.FaultHasNoFurtherStep := by
  intro s r
  refine ⟨s.latch_fault_fault r, s.latch_fault_restore r, ?_⟩
  intro s' hfault
  exact ⟨serve_of_fault hfault, step_of_fault hfault⟩

end Sys2Proof.Machine
end

section
/-! PROOFS. What a cycle makes of the current task's record, said once, and what it leaves of everything else
(40_cycle.md R103, R104; 10_state.md R17). The statements about flags, pc, the stacks and the invariant rest on it. -/

namespace Sys2Proof.Machine

/-! ## Everything but the current task -/

/-- From `s` to `s'` the current task's record becomes `t'`, and all else that `OthersUnchanged` speaks of stays. -/
structure CurrentBecomes (s s' : State) (t' : Task) : Prop where
  others : OthersUnchanged s s'
  current : s'.currentTask = some t'

theorem CurrentBecomes.refl {s : State} {t : Task} (ht : s.currentTask = some t) : CurrentBecomes s s t :=
  ⟨OthersUnchanged.refl s, ht⟩

theorem CurrentBecomes.trans {a b c : State} {t u : Task} (h : CurrentBecomes a b t) (k : CurrentBecomes b c u) :
    CurrentBecomes a c u :=
  ⟨h.others.trans k.others, k.current⟩

theorem CurrentBecomes.answer {s s' : State} {t : Task} (h : CurrentBecomes s s' t) (c : ResultCode) :
    CurrentBecomes s (s'.answer c) t :=
  ⟨h.others.trans (OthersUnchanged.answer s' c), h.current⟩

theorem CurrentBecomes.putTask {s : State} {t : Task} (ht : s.currentTask = some t) (t' : Task)
    (hh : t'.handle = t.handle) : CurrentBecomes s (s.putTask t') t' :=
  ⟨OthersUnchanged.putTask ht hh, State.currentTask_putTask ht hh⟩

/-- RUNNING, the host context and the count of draws are the VM's, not a task's (R30, R31). -/
theorem CurrentBecomes.setGlobals {s : State} {t : Task} (ht : s.currentTask = some t) (r : Bool) (ctx : HostCtx)
    (n : Nat) : CurrentBecomes s { s with running := r, hostCtx := ctx, draws := n } t :=
  ⟨⟨fun _ _ => rfl, rfl, rfl, rfl, rfl, rfl, rfl, rfl, rfl⟩, ht⟩

/-! ## The current task -/

/-- The records `t'` that an instruction run on the record `t` can leave, and with which result, CODE_SIZE and the
parameters being given: `Effect` with everything but the current task left out. -/
inductive TaskEffect (size : Nat) (p : Params) (t : Task) : Instr → ResultCode → Task → Prop
  | error (i c) (hc : c ≠ .ok) : TaskEffect size p t i c t
  | skip (i) (hp : t.flags.holds i.ext = false) (hi : ∀ e a b, i ≠ .ret e a b) : TaskEffect size p t i .ok t
  | nop (e a b) : TaskEffect size p t (.nop e a b) .ok t
  | endVm (e a b) : TaskEffect size p t (.endVm e a b) .ok t
  | regWrite (i d r) (hi : isRegDest i = true) : TaskEffect size p t i .ok ((t.writeReg d r).setNZZ r)
  | regSkip (i d) (hi : isRegDest i = true) :
      TaskEffect size p t i .ok (if p.nzzOnSuppressed then t.setNZZ (t.readReg d) else t)
  | push (e a b vs) (hf : t.sp + vs.length ≤ t.ds.length) : TaskEffect size p t (.push e a b) .ok (t.dsPushAll vs)
  | pop (e a b rs) : TaskEffect size p t (.pop e a b) .ok (popInto p.popSetsNzz t rs)
  | cmp (e a b v w) : TaskEffect size p t (.cmp e a b) .ok { t with flags := t.flags.compare v w }
  | clf (e a b) : TaskEffect size p t (.clf e a b) .ok { t with flags := t.flags.clearSelected e }
  | jmp (e a b v) (hp : t.flags.holds e = true) (hv : argValue t a = some v) (h0 : 0 ≤ v.toInt)
      (h1 : v.toInt < size) : TaskEffect size p t (.jmp e a b) .ok { t with pc := v }
  | inv (e a b v) (hp : t.flags.holds e = true) (hv : argValue t a = some v) (hf : t.rpc ≠ t.cs.length)
      (h0 : 0 ≤ v.toInt) (h1 : v.toInt < size) :
      TaskEffect size p t (.inv e a b) .ok { t.csPush t.pc with pc := v }
  | invOver (e a b) (hf : t.rpc ≠ t.cs.length) : TaskEffect size p t (.inv e a b) .jmpOverflow (t.csPush t.pc)
  | ret (e a b) (hf : t.rpc ≠ 0) : TaskEffect size p t (.ret e a b) .ok { t.csPop.2 with pc := t.csPop.1 }
  | sys (e a b regs) : TaskEffect size p t (.sys e a b) .ok { t with regs := regs }

/-! ### The fields that a sequence of pushes or pops leaves -/

@[simp] theorem Task.dsPushAll_sp (t : Task) (vs : List Word) : (t.dsPushAll vs).sp = t.sp + vs.length := by
  obtain ⟨hsp, -⟩ := t.dsPushAll_spec vs
  exact hsp

@[simp] theorem Task.length_dsPushAll_ds (t : Task) (vs : List Word) :
    (t.dsPushAll vs).ds.length = t.ds.length := by
  obtain ⟨-, hlength, -⟩ := t.dsPushAll_spec vs
  exact hlength

@[simp] theorem Task.dsPushAll_handle (t : Task) (vs : List Word) : (t.dsPushAll vs).handle = t.handle := by
  obtain ⟨-, -, -, -, hhandle, -⟩ := t.dsPushAll_spec vs
  exact hhandle

@[simp] theorem Task.dsPushAll_flags (t : Task) (vs : List Word) : (t.dsPushAll vs).flags = t.flags := by
  obtain ⟨-, -, -, -, -, -, hflags, -⟩ := t.dsPushAll_spec vs
  exact hflags

@[simp] theorem Task.dsPushAll_pc (t : Task) (vs : List Word) : (t.dsPushAll vs).pc = t.pc := by
  obtain ⟨-, -, -, -, -, -, -, hpc, -⟩ := t.dsPushAll_spec vs
  exact hpc

@[simp] theorem Task.dsPushAll_rpc (t : Task) (vs : List Word) : (t.dsPushAll vs).rpc = t.rpc := by
  obtain ⟨-, -, -, -, -, -, -, -, hrpc, -⟩ := t.dsPushAll_spec vs
  exact hrpc

@[simp] theorem Task.dsPushAll_cs (t : Task) (vs : List Word) : (t.dsPushAll vs).cs = t.cs := by
  obtain ⟨-, -, -, -, -, -, -, -, -, hcs⟩ := t.dsPushAll_spec vs
  exact hcs

@[simp] theorem popInto_sp (b : Bool) (t : Task) (rs : List RegNum) : (popInto b t rs).sp = t.sp - rs.length := by
  obtain ⟨hsp, -⟩ := popInto_frame b t rs
  exact hsp

@[simp] theorem popInto_ds (b : Bool) (t : Task) (rs : List RegNum) : (popInto b t rs).ds = t.ds := by
  obtain ⟨-, hds, -⟩ := popInto_frame b t rs
  exact hds

@[simp] theorem popInto_cs (b : Bool) (t : Task) (rs : List RegNum) : (popInto b t rs).cs = t.cs := by
  obtain ⟨-, -, hcs, -⟩ := popInto_frame b t rs
  exact hcs

@[simp] theorem popInto_handle (b : Bool) (t : Task) (rs : List RegNum) : (popInto b t rs).handle = t.handle := by
  obtain ⟨-, -, -, hhandle, -⟩ := popInto_frame b t rs
  exact hhandle

@[simp] theorem popInto_pc (b : Bool) (t : Task) (rs : List RegNum) : (popInto b t rs).pc = t.pc := by
  obtain ⟨-, -, -, -, hpc, -⟩ := popInto_frame b t rs
  exact hpc

@[simp] theorem popInto_rpc (b : Bool) (t : Task) (rs : List RegNum) : (popInto b t rs).rpc = t.rpc := by
  obtain ⟨-, -, -, -, -, hrpc, -⟩ := popInto_frame b t rs
  exact hrpc

/-- Where POP_SETS_NZZ is false a sequence of pops writes no flag (42_stack.md R111). -/
@[simp] theorem popInto_false_flags (t : Task) (rs : List RegNum) : (popInto false t rs).flags = t.flags := by
  obtain ⟨-, -, -, -, -, -, hflags, -⟩ := popInto_frame false t rs
  exact hflags rfl

/-! ### Instructions and cycles -/

/-- Every effect of an instruction on the state is one on the current task's record, in the frame of `OthersUnchanged`. -/
theorem Effect.becomes {s s' : State} {t : Task} {i : Instr} (ht : s.currentTask = some t) (h : Effect s t i s') :
    ∃ t', CurrentBecomes s s' t' ∧ TaskEffect s.codeSize s.params t i s'.reply.code t' := by
  have same (c : ResultCode) : CurrentBecomes s (s.answer c) t := (CurrentBecomes.refl ht).answer c
  have put (t' : Task) (hh : t'.handle = t.handle) (c : ResultCode) :
      CurrentBecomes s ((s.putTask t').answer c) t' := (CurrentBecomes.putTask ht t' hh).answer c
  cases h with
  | nop e a b => exact ⟨t, same .ok, .nop e a b⟩
  | endRun e a b => exact ⟨t, (CurrentBecomes.setGlobals ht false _ _).answer .ok, .endVm e a b⟩
  | endSkip e a b => exact ⟨t, same .ok, .endVm e a b⟩
  | regError => exact ⟨t, same .argNotReg, .error i .argNotReg (by decide)⟩
  | regWrite _ d r hi => exact ⟨_, put _ (by rfl) .ok, .regWrite i d r hi⟩
  | regSkip _ d hi => exact ⟨_, put _ (by split <;> rfl) .ok, .regSkip i d hi⟩
  | pushOrder => exact ⟨t, same .pushArgBadOrder, .error _ .pushArgBadOrder (by decide)⟩
  | pushFull => exact ⟨t, same .stkOverflow, .error _ .stkOverflow (by decide)⟩
  | push e a b vs _ _ hf => exact ⟨_, put _ (t.dsPushAll_handle vs) .ok, .push e a b vs hf⟩
  | popEmpty => exact ⟨t, same .stkUnderflow, .error _ .stkUnderflow (by decide)⟩
  | pop e a b rs => exact ⟨_, put _ (popInto_handle _ t rs) .ok, .pop e a b rs⟩
  | cmp e a b v w => exact ⟨_, put _ (by rfl) .ok, .cmp e a b v w⟩
  | clf e a b => exact ⟨_, put _ (by rfl) .ok, .clf e a b⟩
  | jmp e a b v hp hv h0 h1 => exact ⟨_, put _ (by rfl) .ok, .jmp e a b v hp hv h0 h1⟩
  | jmpOver => exact ⟨t, put t rfl .jmpOverflow, .error _ .jmpOverflow (by decide)⟩
  | invFull => exact ⟨t, same .callStkOverflow, .error _ .callStkOverflow (by decide)⟩
  | inv e a b v hp hv hf h0 h1 => exact ⟨_, put _ (by rfl) .ok, .inv e a b v hp hv hf h0 h1⟩
  | invOver e a b _ _ _ hf => exact ⟨_, put _ (by rfl) .jmpOverflow, .invOver e a b hf⟩
  | retEmpty => exact ⟨t, same .callStkUnderflow, .error _ .callStkUnderflow (by decide)⟩
  | ret e a b hf => exact ⟨_, put _ (by rfl) .ok, .ret e a b hf⟩
  | sys e a b regs ctx =>
    have called := CurrentBecomes.setGlobals ht s.running ctx (s.draws + 1)
    exact ⟨_, (called.trans (.putTask called.current _ (by rfl))).answer .ok, .sys e a b regs⟩
  | pushSkip _ _ _ hp | popSkip _ _ _ hp | cmpSkip _ _ _ hp | jmpSkip _ _ _ hp | invSkip _ _ _ hp
  | sysSkip _ _ _ hp => exact ⟨t, put t rfl .ok, .skip _ hp (by simp)⟩

/-- The records that a cycle of the current task `t` can leave, and with which result. -/
inductive TaskCycle (s : State) (t : Task) : ResultCode → Task → Prop
  | codeOverflow (h : s.codeSize ≤ t.pc.toNat) : TaskCycle s t .codeOverflow t
  | executed (i c t') (hf : s.fetches t i) (h : TaskEffect s.codeSize s.params (t.advance i.length) i c t') :
      TaskCycle s t c t'
  | unknown (op n) (h : decode (s.fetchWords t.pc.toNat) = .error (.unknownOpcode op n)) :
      TaskCycle s t .unknownInstruction (t.advance (1 + n))

/-- A cycle that answers a next state does nothing while RUNNING is false, and otherwise leaves everything but the current
task's record, RUNNING, the host context and the count of draws. -/
theorem cycle_becomes {s s' : State} (h : cycle s = .next s') :
    (s.running = false ∧ s' = s.answer .notRunning) ∨
    ∃ t t', s.currentTask = some t ∧ CurrentBecomes s s' t' ∧ TaskCycle s t s'.reply.code t' := by
  obtain ⟨hr, rfl⟩ | ⟨hr, t, ht, ⟨hle, rfl⟩ | ⟨i, rest, hd, hx⟩ | ⟨op, n, hd, rfl⟩⟩ := cycle_next h
  · exact .inl ⟨hr, rfl⟩
  · exact .inr ⟨t, t, ht, (CurrentBecomes.setGlobals ht false _ _).answer .codeOverflow, .codeOverflow hle⟩
  · have advanced := CurrentBecomes.putTask ht (t.advance i.length) rfl
    obtain ⟨t', executed, heffect⟩ := (exec_next advanced.current hx).becomes advanced.current
    exact .inr ⟨t, t', ht, advanced.trans executed, .executed i _ t' ⟨hr, ht, rest, hd⟩ heffect⟩
  · exact .inr ⟨t, _, ht, (CurrentBecomes.putTask ht (t.advance (1 + n)) rfl).answer _, .unknown op n hd⟩

/-- The one record that a cycle executing a given instruction can leave is that instruction's. -/
theorem TaskCycle.effect_of_fetches {s : State} {t t' : Task} {i : Instr} {c : ResultCode} (h : TaskCycle s t c t')
    (hf : s.fetches t i) : TaskEffect s.codeSize s.params (t.advance i.length) i c t' := by
  obtain ⟨-, -, rest, hd⟩ := hf
  cases h with
  | codeOverflow hle =>
    rw [(s.fetchWords_eq_nil _).mpr hle] at hd
    cases hd
  | executed j _ _ hj heffect =>
    obtain ⟨-, -, rest', hd'⟩ := hj
    cases hd.symm.trans hd'
    exact heffect
  | unknown op n hd' => cases hd.symm.trans hd'

/-- What a cycle that executes `i` from the current record `t` leaves. -/
theorem effect_of_step {s s' : State} {t t' : Task} {i : Instr} (hc : s.cycleIsNext) (hf : s.fetches t i)
    (h : step s = .next s') (ht' : s'.currentTask = some t') :
    TaskEffect s.codeSize s.params (t.advance i.length) i s'.reply.code t' := by
  rw [step_eq_cycle hc] at h
  obtain ⟨hrunning, ht, -⟩ := id hf
  obtain ⟨hstopped, -⟩ | ⟨u, u', hu, hbecomes, htask⟩ := cycle_becomes h
  · rw [hrunning] at hstopped
    cases hstopped
  · cases ht.symm.trans hu
    cases ht'.symm.trans hbecomes.current
    exact htask.effect_of_fetches hf

/-- Settles O49: with RUNNING false only the result changes, and otherwise the frame of `cycle_becomes` says it. -/
theorem cycleLeavesOthersUnchanged : Obligations.CycleLeavesOthersUnchanged := by
  intro s s' hc h
  rw [step_eq_cycle hc] at h
  obtain ⟨-, rfl⟩ | ⟨t, t', -, hbecomes, -⟩ := cycle_becomes h
  · exact OthersUnchanged.answer s _
  · exact hbecomes.others

end Sys2Proof.Machine
end

section
/-! PROOFS. The flags over a cycle (10_state.md R26, R27; 40_cycle.md R95; 42_stack.md R111): which of the flag
computations keep a flag that is true, and which of them write which flags. -/

namespace Sys2Proof.Machine

/-! ## Flags that stay true -/

/-- Every flag that is true in `f` is true in `f'`. -/
def Flags.StaysIn (f f' : Flags) : Prop := ∀ g, f.get g = true → f'.get g = true

theorem Flags.StaysIn.refl (f : Flags) : f.StaysIn f := fun _ h => h

theorem Flags.StaysIn.trans {f f' f'' : Flags} (h : f.StaysIn f') (k : f'.StaysIn f'') : f.StaysIn f'' :=
  fun g hg => k g (h g hg)

/-- SetNZZ clears no flag (R95). -/
theorem Flags.staysIn_setNZZ (f : Flags) (v : Word) : f.StaysIn (f.setNZZ v) := by
  intro g hg
  cases g <;> simp_all [Flags.get, Flags.setNZZ]

/-- CMP clears no flag (45_compare_flags.md R124). -/
theorem Flags.staysIn_compare (f : Flags) (a b : Word) : f.StaysIn (f.compare a b) := by
  intro g hg
  cases g <;> simp_all [Flags.get, Flags.compare]

/-- A sequence of pops clears no flag. -/
theorem staysIn_popInto (b : Bool) (t : Task) (rs : List RegNum) : t.flags.StaysIn (popInto b t rs).flags := by
  induction rs generalizing t with
  | nil => exact .refl _
  | cons r rs ih =>
    refine Flags.StaysIn.trans ?_ (ih _)
    cases b
    · exact .refl _
    · exact t.flags.staysIn_setNZZ _

/-- No instruction but CLF clears a flag of the current task. -/
theorem TaskEffect.flags_stay {n : Nat} {p : Params} {t t' : Task} {i : Instr} {c : ResultCode}
    (h : TaskEffect n p t i c t') (hclf : ∀ e a b, i ≠ .clf e a b) : t.flags.StaysIn t'.flags := by
  cases h with
  | regWrite _ d r => exact t.flags.staysIn_setNZZ r
  | regSkip _ d =>
    split
    · exact t.flags.staysIn_setNZZ _
    · exact .refl _
  | push e a b vs => exact t.dsPushAll_flags vs ▸ .refl _
  | pop e a b rs => exact staysIn_popInto _ t rs
  | cmp e a b v w => exact t.flags.staysIn_compare v w
  | clf e a b => exact absurd rfl (hclf e a b)
  | error | skip | nop | endVm | jmp | inv | invOver | ret | sys => exact .refl _

/-- No cycle that does not execute CLF clears a flag of the current task. -/
theorem TaskCycle.flags_stay {s : State} {t t' : Task} {c : ResultCode} (h : TaskCycle s t c t')
    (hclf : ∀ u e a b, ¬ s.fetches u (.clf e a b)) : t.flags.StaysIn t'.flags := by
  cases h with
  | codeOverflow => exact .refl _
  | executed i _ _ hf heffect =>
    refine heffect.flags_stay ?_
    rintro e a b rfl
    exact hclf t e a b hf
  | unknown => exact .refl _

/-- Settles O51: a task that is not current keeps its record, and the current one its flags by `TaskCycle.flags_stay`. -/
theorem flagsAreSticky : Obligations.FlagsAreSticky := by
  intro s s' hc h hclf x t t' ht ht'
  rw [step_eq_cycle hc] at h
  obtain ⟨-, rfl⟩ | ⟨u, u', hu, hbecomes, htask⟩ := cycle_becomes h
  · cases ht.symm.trans ht'
    exact Flags.StaysIn.refl _
  · by_cases hx : s.cur = some x
    · have hxu : x = u.handle := Option.some.inj (hx.symm.trans (State.cur_of_currentTask hu))
      have hxu' : x = u'.handle :=
        Option.some.inj (hx.symm.trans (hbecomes.others.cur ▸ State.cur_of_currentTask hbecomes.current))
      cases ht.symm.trans (hxu ▸ State.task_of_currentTask hu)
      cases ht'.symm.trans (hxu' ▸ State.task_of_currentTask hbecomes.current)
      exact htask.flags_stay hclf
    · rw [hbecomes.others.tasks x hx] at ht'
      cases ht.symm.trans ht'
      exact Flags.StaysIn.refl _

/-! ## Which instruction writes which flags -/

/-- A sequence of pops writes no comparison flag. -/
theorem popInto_comparisons (b : Bool) (t : Task) (rs : List RegNum) :
    (popInto b t rs).flags = { t.flags with nz := (popInto b t rs).flags.nz, z := (popInto b t rs).flags.z } := by
  cases b with
  | false => simp
  | true =>
    obtain ⟨hflags, -⟩ := popInto_flags t rs
    exact hflags

/-- No instruction but CMP and CLF writes a comparison flag. -/
theorem TaskEffect.comparisons {n : Nat} {p : Params} {t t' : Task} {i : Instr} {c : ResultCode}
    (h : TaskEffect n p t i c t') (hcmp : ∀ e a b, i ≠ .cmp e a b) (hclf : ∀ e a b, i ≠ .clf e a b) :
    t'.flags = { t.flags with nz := t'.flags.nz, z := t'.flags.z } := by
  cases h with
  | regSkip _ d => split <;> rfl
  | push e a b vs => rw [t.dsPushAll_flags vs]
  | pop e a b rs => exact popInto_comparisons _ t rs
  | cmp e a b v w => exact absurd rfl (hcmp e a b)
  | clf e a b => exact absurd rfl (hclf e a b)
  | regWrite | error | skip | nop | endVm | jmp | inv | invOver | ret | sys => rfl

/-- No instruction but CMP, CLF, the register-destination instructions, and POP where POP_SETS_NZZ is true writes any
flag. -/
theorem TaskEffect.nzz {n : Nat} {p : Params} {t t' : Task} {i : Instr} {c : ResultCode}
    (h : TaskEffect n p t i c t') (hreg : isRegDest i = false) (hclf : ∀ e a b, i ≠ .clf e a b)
    (hpop : ∀ e a b, i = .pop e a b → p.popSetsNzz = false) :
    t'.flags.nz = t.flags.nz ∧ t'.flags.z = t.flags.z := by
  cases h with
  | regWrite _ _ _ hi | regSkip _ _ hi =>
    rw [hi] at hreg
    cases hreg
  | push e a b vs => simp
  | pop e a b rs =>
    rw [hpop e a b rfl]
    simp
  | clf e a b => exact absurd rfl (hclf e a b)
  | cmp | error | skip | nop | endVm | jmp | inv | invOver | ret | sys => exact ⟨rfl, rfl⟩

/-- Settles O52: the flags of the record that the cycle runs on are those before it, only pc having moved. -/
theorem flagsAreWrittenOnlyAsStated : Obligations.FlagsAreWrittenOnlyAsStated := by
  intro s s' t t' i hc hf h ht'
  have heffect := effect_of_step hc hf h ht'
  exact ⟨heffect.comparisons, heffect.nzz⟩

end Sys2Proof.Machine
end

section
/-! PROOFS. Where pc and the depth of the call stack are after a cycle (10_state.md R22, 46_control.md R127 to R130): JMP,
INV and RET, what each of them leaves, and that no other instruction moves either. -/

namespace Sys2Proof.Machine

/-- A JMP that returns OK has branched or was suppressed. -/
theorem TaskEffect.of_jmp {n : Nat} {p : Params} {t t' : Task} {e : Ext} {a b : Arg}
    (h : TaskEffect n p t (.jmp e a b) .ok t') :
    (t.flags.holds e = true ∧ ∃ v, argValue t a = some v ∧ t' = { t with pc := v }) ∨
    (t.flags.holds e = false ∧ t' = t) := by
  cases h with
  | error _ _ hc => exact absurd rfl hc
  | skip _ hp => exact .inr ⟨hp, rfl⟩
  | regWrite _ _ _ hi | regSkip _ _ hi => cases hi
  | jmp _ _ _ v hp hv => exact .inl ⟨hp, v, hv, rfl⟩

/-- An INV that returns OK has pushed its return address and branched, or was suppressed. -/
theorem TaskEffect.of_inv {n : Nat} {p : Params} {t t' : Task} {e : Ext} {a b : Arg}
    (h : TaskEffect n p t (.inv e a b) .ok t') :
    (t.flags.holds e = true ∧ ∃ v, argValue t a = some v ∧ t' = { t.csPush t.pc with pc := v }) ∨
    (t.flags.holds e = false ∧ t' = t) := by
  cases h with
  | error _ _ hc => exact absurd rfl hc
  | skip _ hp => exact .inr ⟨hp, rfl⟩
  | regWrite _ _ _ hi | regSkip _ _ hi => cases hi
  | inv _ _ _ v hp hv => exact .inl ⟨hp, v, hv, rfl⟩

/-- A RET that returns OK has popped an entry into pc. -/
theorem TaskEffect.of_ret {n : Nat} {p : Params} {t t' : Task} {e : Ext} {a b : Arg}
    (h : TaskEffect n p t (.ret e a b) .ok t') :
    t.rpc ≠ 0 ∧ t' = { t.csPop.2 with pc := t.csPop.1 } := by
  cases h with
  | error _ _ hc => exact absurd rfl hc
  | skip _ _ hi => exact absurd rfl (hi e a b)
  | regWrite _ _ _ hi | regSkip _ _ hi => cases hi
  | ret _ _ _ hf => exact ⟨hf, rfl⟩

/-- No instruction but JMP, INV and RET writes pc, whatever it returns. -/
theorem TaskEffect.pc_eq {n : Nat} {p : Params} {t t' : Task} {i : Instr} {c : ResultCode}
    (h : TaskEffect n p t i c t') (hi : ∀ e a b, i ≠ .jmp e a b ∧ i ≠ .inv e a b ∧ i ≠ .ret e a b) :
    t'.pc = t.pc := by
  cases h with
  | jmp e a b =>
    obtain ⟨hjmp, -⟩ := hi e a b
    exact absurd rfl hjmp
  | inv e a b | invOver e a b =>
    obtain ⟨-, hinv, -⟩ := hi e a b
    exact absurd rfl hinv
  | ret e a b =>
    obtain ⟨-, -, hret⟩ := hi e a b
    exact absurd rfl hret
  | regSkip _ d => split <;> rfl
  | push e a b vs => exact t.dsPushAll_pc vs
  | pop e a b rs => exact popInto_pc _ t rs
  | regWrite | error | skip | nop | endVm | cmp | clf | sys => rfl

/-- No instruction but INV and RET changes the depth of the call stack, whatever it returns. -/
theorem TaskEffect.rpc_eq {n : Nat} {p : Params} {t t' : Task} {i : Instr} {c : ResultCode}
    (h : TaskEffect n p t i c t') (hi : ∀ e a b, i ≠ .inv e a b ∧ i ≠ .ret e a b) : t'.rpc = t.rpc := by
  cases h with
  | inv e a b | invOver e a b =>
    obtain ⟨hinv, -⟩ := hi e a b
    exact absurd rfl hinv
  | ret e a b =>
    obtain ⟨-, hret⟩ := hi e a b
    exact absurd rfl hret
  | regSkip _ d => split <;> rfl
  | push e a b vs => exact t.dsPushAll_rpc vs
  | pop e a b rs => exact popInto_rpc _ t rs
  | regWrite | error | skip | nop | endVm | cmp | clf | jmp | sys => rfl

/-- The top entry of the call stack, where there is one, is what a pop answers. -/
theorem Task.csPop_value {t : Task} {v : Word} (h : t.cs[t.rpc - 1]? = some v) : t.csPop.1 = v := by
  simp [Task.csPop, Task.csRead, List.getD_eq_getElem?_getD, h]

/-- An argument has the value it had before pc moved (40_cycle.md R90). -/
@[simp] theorem argValue_advance (t : Task) (n : Nat) (a : Arg) : argValue (t.advance n) a = argValue t a := by
  cases a <;> rfl

/-- Settles O55: each control instruction by its own lemma, the others by what they leave. -/
theorem pcAndCallDepthAfterACycle : Obligations.PcAndCallDepthAfterACycle := by
  intro s s' t t' i hc hf h ht'
  have heffect := effect_of_step hc hf h ht'
  refine ⟨fun hok => ?_, heffect.rpc_eq⟩
  rw [hok] at heffect
  refine ⟨?branch, ?suppressed, ?ret, ?other, ?invDepth, ?retDepth⟩
  case branch =>
    rintro e a b (rfl | rfl) hp
    · obtain ⟨-, v, hv, rfl⟩ | ⟨hp', -⟩ := heffect.of_jmp
      · simpa using hv
      · exact absurd (hp.symm.trans hp') (by decide)
    · obtain ⟨-, v, hv, rfl⟩ | ⟨hp', -⟩ := heffect.of_inv
      · simpa using hv
      · exact absurd (hp.symm.trans hp') (by decide)
  case suppressed =>
    rintro e a b (rfl | rfl) hp
    · obtain ⟨hp', -⟩ | ⟨-, rfl⟩ := heffect.of_jmp
      · exact absurd (hp.symm.trans hp') (by decide)
      · rfl
    · obtain ⟨hp', -⟩ | ⟨-, rfl⟩ := heffect.of_inv
      · exact absurd (hp.symm.trans hp') (by decide)
      · rfl
  case ret =>
    rintro e a b v rfl hv
    obtain ⟨-, rfl⟩ := heffect.of_ret
    exact Task.csPop_value hv
  case other => exact heffect.pc_eq
  case invDepth =>
    rintro e a b rfl hp
    obtain ⟨-, v, -, rfl⟩ | ⟨hp', -⟩ := heffect.of_inv
    · rfl
    · exact absurd (hp.symm.trans hp') (by decide)
  case retDepth =>
    rintro e a b rfl
    obtain ⟨hne, rfl⟩ := heffect.of_ret
    exact Nat.succ_pred_eq_of_ne_zero hne

end Sys2Proof.Machine
end

section
/-! PROOFS. The invariant over a cycle and over every operation of the host (10_state.md R38, R39, R42;
70_reset_and_hazards.md R165). -/

namespace Sys2Proof.Machine

/-! ## The ring -/

/-- Where handles name one task each, a task of the ring is the one found under its handle (R38). -/
theorem State.task_of_mem {s : State} (hn : (s.ring.map Task.handle).Nodup) {t : Task} (ht : t ∈ s.ring) :
    s.task t.handle = some t := by
  have found : (s.ring.find? (fun u => u.handle == t.handle)).isSome := List.find?_isSome.mpr ⟨t, ht, by simp⟩
  obtain ⟨u, hu⟩ := Option.isSome_iff_exists.mp found
  have same : u = t :=
    List.inj_on_of_nodup_map hn (List.mem_of_find?_eq_some hu) ht (by simpa using List.find?_some hu)
  exact same ▸ hu

/-- CUR names a current task where it names a task of the ring. -/
theorem State.exists_currentTask {s : State} {t : Task} (ht : t ∈ s.ring) (hc : s.cur = some t.handle) :
    ∃ u, s.currentTask = some u := by
  simp only [State.currentTask, hc, State.task]
  exact Option.isSome_iff_exists.mp (List.find?_isSome.mpr ⟨t, ht, by simp⟩)

/-- Every task of the ring after a cycle is the current one's new record or was there before. -/
theorem CurrentBecomes.mem_ring {s s' : State} {t' u : Task} (h : CurrentBecomes s s' t')
    (hn : (s.ring.map Task.handle).Nodup) (hu : u ∈ s'.ring) : u = t' ∨ u ∈ s.ring := by
  have hu' : s'.task u.handle = some u := State.task_of_mem (h.others.order ▸ hn) hu
  by_cases hc : s.cur = some u.handle
  · have hx : u.handle = t'.handle :=
      Option.some.inj (hc.symm.trans (h.others.cur ▸ State.cur_of_currentTask h.current))
    rw [hx, State.task_of_currentTask h.current] at hu'
    exact .inl (Option.some.inj hu').symm
  · rw [h.others.tasks _ hc] at hu'
    exact .inr (List.mem_of_find?_eq_some hu')

/-! ## The stacks of the current task -/

/-- An instruction keeps the bounds of both stacks (R42). -/
theorem TaskEffect.stacksInBounds {n : Nat} {p : Params} {t t' : Task} {i : Instr} {c : ResultCode}
    (h : TaskEffect n p t i c t') (ht : t.stacksInBounds) : t'.stacksInBounds := by
  obtain ⟨hsp, hrpc⟩ := ht
  cases h with
  | regSkip _ d => split <;> exact ⟨hsp, hrpc⟩
  | push e a b vs hf => exact ⟨by simpa using hf, by simpa using hrpc⟩
  | pop e a b rs => exact ⟨by simp; omega, by simpa using hrpc⟩
  | inv e a b v _ _ hf | invOver e a b hf => exact ⟨hsp, by simp; omega⟩
  | ret e a b => exact ⟨hsp, by simp; omega⟩
  | regWrite | error | skip | nop | endVm | cmp | clf | jmp | sys => exact ⟨hsp, hrpc⟩

/-- A cycle keeps the bounds of the current task's stacks. -/
theorem TaskCycle.stacksInBounds {s : State} {t t' : Task} {c : ResultCode} (h : TaskCycle s t c t')
    (ht : t.stacksInBounds) : t'.stacksInBounds := by
  cases h with
  | executed i _ _ _ heffect => exact heffect.stacksInBounds ht
  | codeOverflow | unknown => exact ht

/-! ## The operations, one by one -/

theorem State.Inv.answer {s : State} (h : s.Inv) (c : ResultCode) : (s.answer c).Inv :=
  ⟨h.handles, h.bounds, h.idle, h.loaded⟩

theorem cycle_keeps_inv {s s' : State} (hs : s.Inv) (h : cycle s = .next s') : s'.Inv := by
  obtain ⟨-, rfl⟩ | ⟨t, t', ht, hbecomes, htask⟩ := cycle_becomes h
  · exact hs.answer _
  have hmem := State.mem_of_currentTask ht
  constructor
  case handles => exact hbecomes.others.order ▸ hs.handles
  case bounds =>
    intro u hu
    obtain rfl | hu := hbecomes.mem_ring hs.handles hu
    · exact htask.stacksInBounds (hs.bounds t hmem)
    · exact hs.bounds u hu
  case idle =>
    intro hcode
    obtain ⟨hring, -⟩ := hs.idle (hbecomes.others.code ▸ hcode)
    rw [hring] at hmem
    cases hmem
  case loaded =>
    intro img himg
    obtain ⟨hwf, -⟩ := hs.loaded img (hbecomes.others.code ▸ himg)
    exact ⟨hwf, t', hbecomes.current⟩

theorem initTask_stacksInBounds (h : Handle) (pc : Word) (seeds : Option RegFile) (m : ImageMeta) (draw : Nat) :
    (initTask h pc seeds m draw).stacksInBounds := ⟨Nat.zero_le _, Nat.zero_le _⟩

theorem load_keeps_inv {words : List Word} {m : ImageMeta} {seeds : Option RegFile} {alloc : Option Handle}
    {s s' : State} (hs : s.Inv) (h : load words m seeds alloc s = .next s') : s'.Inv := by
  unfold load at h
  split at h
  · cases h
  split at h
  · cases h
  rename_i hsize
  split at h
  · cases h
    exact hs.answer _
  rename_i k
  cases h
  constructor
  case handles => exact List.nodup_singleton _
  case bounds =>
    intro t ht
    rw [List.mem_singleton.mp ht]
    exact initTask_stacksInBounds ..
  case idle => intro hcode; cases hcode
  case loaded =>
    intro img himg
    cases himg
    exact ⟨CodeImage.ofWords_wf _ _ (by omega), State.exists_currentTask (List.mem_singleton.mpr rfl) rfl⟩

/-- The successor of a handle is a task of the ring. -/
theorem mem_of_successorIn {k k' : Handle} {ring : List Task} (h : successorIn k ring = some k') :
    ∃ t ∈ ring, k' = t.handle := by
  induction ring with
  | nil => cases h
  | cons u ring ih =>
    unfold successorIn at h
    split at h
    · cases ring with
      | nil => cases h
      | cons v ring =>
        cases h
        exact ⟨v, by simp, rfl⟩
    · obtain ⟨t, ht, rfl⟩ := ih h
      exact ⟨t, List.mem_cons_of_mem u ht, rfl⟩

/-- A switch that is not blocked makes some task of the ring current, or none where there is none (60_exceptions.md
R154). -/
theorem switchTask_next {s s' : State} (h : switchTask s = .next s') :
    s' = s.answer .taskSwitchBlocked ∨
    ∃ next, s' = { s with cur := next }.answer .ok ∧
      ((s.ring = [] ∧ next = none) ∨ ∃ t ∈ s.ring, next = some t.handle) := by
  have head : (s.ring = [] ∧ (s.ring.head?).map Task.handle = none) ∨
      ∃ t ∈ s.ring, (s.ring.head?).map Task.handle = some t.handle := by
    cases s.ring with
    | nil => exact .inl ⟨rfl, rfl⟩
    | cons t ring => exact .inr ⟨t, by simp, rfl⟩
  unfold switchTask at h
  split at h
  · cases h
    exact .inl rfl
  · cases h
    refine .inr ⟨_, rfl, ?_⟩
    split
    · exact head
    · split
      · rename_i k' hk
        obtain ⟨t, ht, rfl⟩ := mem_of_successorIn hk
        exact .inr ⟨t, ht, rfl⟩
      · exact head

theorem switchTask_keeps_inv {s s' : State} (hs : s.Inv) (h : switchTask s = .next s') : s'.Inv := by
  obtain rfl | ⟨next, rfl, hnext⟩ := switchTask_next h
  · exact hs.answer _
  refine ⟨hs.handles, hs.bounds, ?idle, ?loaded⟩
  case idle =>
    intro hcode
    obtain ⟨hring, -, hrunning⟩ := hs.idle hcode
    obtain ⟨-, rfl⟩ | ⟨t, ht, -⟩ := hnext
    · exact ⟨hring, rfl, hrunning⟩
    · rw [hring] at ht
      cases ht
  case loaded =>
    intro img himg
    obtain ⟨hwf, u, hu⟩ := hs.loaded img himg
    have hmem := State.mem_of_currentTask hu
    refine ⟨hwf, ?_⟩
    obtain ⟨hring, -⟩ | ⟨t, ht, rfl⟩ := hnext
    · rw [hring] at hmem
      cases hmem
    · exact State.exists_currentTask ht rfl

theorem blockSwitch_keeps_inv {b : Bool} {s s' : State} (hs : s.Inv) (h : blockSwitch b s = .next s') : s'.Inv := by
  cases h
  exact ⟨hs.handles, hs.bounds, hs.idle, hs.loaded⟩

theorem create_keeps_inv {pc : Word} {seeds : Option RegFile} {alloc : Option Handle} {s s' : State} (hs : s.Inv)
    (h : create pc seeds alloc s = .next s') : s'.Inv := by
  unfold create at h
  split at h
  · cases h
  rename_i img hcode
  split at h
  · cases h
    exact hs.answer _
  rename_i k
  split at h
  · cases h
  rename_i hfree
  have hnew : ∀ t ∈ s.ring, t.handle ≠ k := by
    rintro t ht rfl
    simp [State.task_of_mem hs.handles ht] at hfree
  cases h
  constructor
  case handles =>
    rw [List.map_append, List.nodup_append]
    refine ⟨hs.handles, List.nodup_singleton _, ?_⟩
    intro x hx y hy
    obtain ⟨t, ht, rfl⟩ := List.mem_map.mp hx
    rw [List.mem_singleton.mp hy]
    exact hnew t ht
  case bounds =>
    intro t ht
    obtain ht | ht := List.mem_append.mp ht
    · exact hs.bounds t ht
    · rw [List.mem_singleton.mp ht]
      exact initTask_stacksInBounds ..
  case idle => intro hnone; cases hcode.symm.trans hnone
  case loaded =>
    intro img' himg
    obtain ⟨hwf, u, hu⟩ := hs.loaded img' himg
    have hcur := State.cur_of_currentTask hu
    exact ⟨hwf, State.exists_currentTask (List.mem_append_left _ (State.mem_of_currentTask hu)) hcur⟩

theorem remove_keeps_inv {k : Handle} {s s' : State} (hs : s.Inv) (h : remove k s = .next s') : s'.Inv := by
  unfold remove at h
  split at h
  · cases h
    exact hs.answer _
  split at h
  · cases h
  rename_i hcur
  cases h
  have kept := List.filter_sublist (l := s.ring) (p := fun t => t.handle != k)
  refine ⟨hs.handles.sublist (kept.map _), fun t ht => hs.bounds t (kept.subset ht), ?idle, ?loaded⟩
  case idle =>
    intro hcode
    obtain ⟨hring, hnone, hrunning⟩ := hs.idle hcode
    exact ⟨by simp [hring], hnone, hrunning⟩
  case loaded =>
    intro img himg
    obtain ⟨hwf, u, hu⟩ := hs.loaded img himg
    have hc := State.cur_of_currentTask hu
    have hne : u.handle ≠ k := by
      rintro rfl
      exact hcur hc
    exact ⟨hwf, State.exists_currentTask (List.mem_filter.mpr ⟨State.mem_of_currentTask hu, by simpa using hne⟩) hc⟩

theorem unload_keeps_inv {s s' : State} (h : unload s = .next s') : s'.Inv := by
  unfold unload at h
  split at h
  · cases h
  cases h
  constructor
  case handles => exact List.nodup_nil
  case bounds => intro t ht; cases ht
  case idle => exact fun _ => ⟨rfl, rfl, rfl⟩
  case loaded => intro img himg; cases himg

/-! ## Every step -/

/-- Every operation of the host keeps the invariant. -/
theorem serve_keeps_inv {call : HostCall} {s s' : State} (hs : s.Inv) (h : serve call s = .next s') : s'.Inv := by
  unfold serve at h
  split at h
  · cases h
  cases call with
  | load words m seeds alloc => exact load_keeps_inv hs h
  | cycle => exact cycle_keeps_inv hs h
  | switchTask => exact switchTask_keeps_inv hs h
  | block b => exact blockSwitch_keeps_inv hs h
  | create pc seeds alloc => exact create_keeps_inv hs h
  | remove k => exact remove_keeps_inv hs h
  | unload => exact unload_keeps_inv h

/-- Settles O59: a step serves one operation, and the list of waiting ones is not the invariant's. -/
theorem stepKeepsTheInvariant : Obligations.StepKeepsTheInvariant := by
  intro s s' hs h
  unfold step at h
  split at h
  · exact serve_keeps_inv hs h
  · next call rest _ =>
    have hs' : { s with calls := rest }.Inv := ⟨hs.handles, hs.bounds, hs.idle, hs.loaded⟩
    exact serve_keeps_inv hs' h

end Sys2Proof.Machine
end

section
/-! PROOFS. pc and the return addresses stay at most CODE_SIZE while only cycles run (10_state.md R24, R42; 46_control.md
R126, R128): an instruction is fetched whole from the image, a branch goes below CODE_SIZE, and a return goes to an entry
that a call has pushed. -/

namespace Sys2Proof.Machine

/-! ## The words of an instruction lie within the image -/

theorem CodeImage.length_wordsFrom_le (img : CodeImage) (n a : Nat) : (img.wordsFrom n a).length ≤ img.size - a := by
  induction n generalizing a with
  | zero => exact Nat.zero_le _
  | succ n ih =>
    rw [CodeImage.wordsFrom_succ]
    cases hw : img.codeRead a with
    | none => exact Nat.zero_le _
    | some w =>
      have hlt : ¬ img.size ≤ a := fun hle => by simp [(img.codeRead_eq_none a).mpr hle] at hw
      have := ih (a + 1)
      simp only [List.length_cons]
      omega

theorem State.length_fetchWords_le (s : State) (a : Nat) : (s.fetchWords a).length ≤ s.codeSize - a := by
  unfold State.fetchWords State.codeSize
  cases s.code with
  | none => exact Nat.zero_le _
  | some img => exact img.length_wordsFrom_le 3 a

/-- A decoded instruction is no longer than the words it was decoded from. -/
theorem length_le_of_decode {ws rest : List Word} {i : Instr} (h : decode ws = .ok (i, rest)) :
    i.length ≤ ws.length := by
  obtain ⟨w, rfl, -⟩ := decode_ok h
  simp only [Instr.length, List.length_cons, List.length_append]
  omega

/-- An unknown opcode's literals are among the words after it. -/
theorem literals_le_of_decode {ws : List Word} {op : Byte} {n : Nat} (h : decode ws = .error (.unknownOpcode op n)) :
    1 + n ≤ ws.length := by
  obtain ⟨w, rest, rfl, -, -, rfl, hle⟩ := decode_unknown h
  simp only [List.length_cons]
  omega

/-! ## The current task -/

/-- Moving pc past words of the image keeps it at most CODE_SIZE: it does not wrap, CODE_SIZE being below 2^32. -/
theorem Task.pcsInBounds_advance {n size : Nat} {t : Task} (h : t.pcsInBounds size) (hsize : size < 2 ^ 32)
    (hn : n ≤ size - t.pc.toNat) : (t.advance n).pcsInBounds size := by
  obtain ⟨hpc, hentries⟩ := h
  refine ⟨?_, hentries⟩
  rw [Task.advance_pc, BitVec.toNat_add, BitVec.toNat_ofNat]
  omega

/-- A branch target that JMP and INV accept is below CODE_SIZE. -/
theorem toNat_lt_of_target {v : Word} {n : Nat} (h0 : 0 ≤ v.toInt) (h1 : v.toInt < n) : v.toNat < n := by
  rw [BitVec.toInt_eq_toNat_cond] at h0 h1
  split at h1 <;> omega

/-- A pushed return address joins the entries that were there. -/
theorem Task.entries_csPush {size : Nat} {t : Task} (h : t.pcsInBounds size) (hroom : t.rpc < t.cs.length) :
    ∀ k < (t.csPush t.pc).rpc, ∃ v, (t.csPush t.pc).cs[k]? = some v ∧ v.toNat ≤ size := by
  obtain ⟨hpc, hentries⟩ := h
  intro k hk
  simp only [csPush_rpc, csPush_cs] at hk ⊢
  by_cases hlast : k = t.rpc
  · subst hlast
    exact ⟨t.pc, List.getElem?_set_self hroom, hpc⟩
  · rw [List.getElem?_set_ne (Ne.symm hlast)]
    exact hentries k (by omega)

/-- An instruction keeps pc and the return addresses of the current task at most CODE_SIZE. -/
theorem TaskEffect.pcsInBounds {size : Nat} {p : Params} {t t' : Task} {i : Instr} {c : ResultCode}
    (h : TaskEffect size p t i c t') (ht : t.pcsInBounds size) (hs : t.stacksInBounds) : t'.pcsInBounds size := by
  obtain ⟨hpc, hentries⟩ := id ht
  obtain ⟨-, hrpc⟩ := hs
  cases h with
  | jmp e a b v _ _ h0 h1 => exact ⟨(toNat_lt_of_target h0 h1).le, hentries⟩
  | inv e a b v _ _ hf h0 h1 => exact ⟨(toNat_lt_of_target h0 h1).le, Task.entries_csPush ht (by omega)⟩
  | invOver e a b hf => exact ⟨hpc, Task.entries_csPush ht (by omega)⟩
  | ret e a b hf =>
    obtain ⟨v, hv, hle⟩ := hentries (t.rpc - 1) (by omega)
    exact ⟨by rwa [Task.csPop_value hv], fun k hk => hentries k (hk.trans_le (Nat.sub_le _ _))⟩
  | regSkip _ d => split <;> exact ht
  | push e a b vs => simpa [Task.pcsInBounds] using ht
  | pop e a b rs => simpa [Task.pcsInBounds] using ht
  | regWrite | error | skip | nop | endVm | cmp | clf | sys => exact ht

/-- A cycle keeps pc and the return addresses of the current task at most CODE_SIZE. -/
theorem TaskCycle.pcsInBounds {s : State} {t t' : Task} {c : ResultCode} (h : TaskCycle s t c t')
    (hsize : s.codeSize < 2 ^ 32) (ht : t.pcsInBounds s.codeSize) (hs : t.stacksInBounds) :
    t'.pcsInBounds s.codeSize := by
  have fetched := s.length_fetchWords_le t.pc.toNat
  cases h with
  | codeOverflow => exact ht
  | executed i _ _ hf heffect =>
    obtain ⟨-, -, rest, hd⟩ := hf
    have advanced := Task.pcsInBounds_advance ht hsize ((length_le_of_decode hd).trans fetched)
    exact heffect.pcsInBounds advanced hs
  | unknown op n hd => exact Task.pcsInBounds_advance ht hsize ((literals_le_of_decode hd).trans fetched)

/-- CODE_SIZE is below 2^32 where the invariant holds (00_scope.md R6). -/
theorem State.Inv.codeSize_lt {s : State} (h : s.Inv) : s.codeSize < 2 ^ 32 := by
  unfold State.codeSize
  cases hcode : s.code with
  | none => decide
  | some img =>
    obtain ⟨⟨-, -, hsize⟩, -⟩ := h.loaded img hcode
    simp only [Config.maxCodeSize] at hsize ⊢
    omega

/-- Settles O60: every task after the cycle is the current one's new record or was there before. -/
theorem cycleKeepsPcsWithinTheCode : Obligations.CycleKeepsPcsWithinTheCode := by
  intro s s' hs hpcs hc h
  rw [step_eq_cycle hc] at h
  obtain ⟨-, rfl⟩ | ⟨t, t', ht, hbecomes, htask⟩ := cycle_becomes h
  · exact hpcs
  have hsize : s'.codeSize = s.codeSize := by simp only [State.codeSize, hbecomes.others.code]
  have hmem := State.mem_of_currentTask ht
  intro u hu
  rw [hsize]
  obtain rfl | hu := hbecomes.mem_ring hs.handles hu
  · exact htask.pcsInBounds hs.codeSize_lt (hpcs t hmem) (hs.bounds t hmem)
  · exact hpcs u hu

end Sys2Proof.Machine
end

section
/-! PROOFS. No task can observe another (20_memory.md R55, 10_state.md R17, 60_exceptions.md R156): the relation "differ
only in tasks that are not current" between two states, and that every operation an instruction is built of has the same
outcome on both. -/

namespace Sys2Proof.Machine

/-! ## States and outcomes that differ only in other tasks -/

/-- The two states differ only in tasks that are not current: in the ring, but not in the current task's record. -/
structure DifferInOthers (s₁ s₂ : State) : Prop where
  rest : s₂ = { s₁ with ring := s₂.ring }
  current : s₁.currentTask = s₂.currentTask

/-- The two outcomes are the same UNDEFINED reason, or next states that differ only in tasks that are not current.
Neither is a refusal. -/
inductive SameOutcome : Host.Outcome State Fault Refusal → Host.Outcome State Fault Refusal → Prop
  | next {s₁ s₂ : State} (h : DifferInOthers s₁ s₂) : SameOutcome (.next s₁) (.next s₂)
  | fault (r : Fault) : SameOutcome (.fault r) (.fault r)

theorem SameOutcome.of_fault {o : Host.Outcome State Fault Refusal} {r : Fault} (h : SameOutcome (.fault r) o) :
    o = .fault r := by
  cases h
  rfl

theorem SameOutcome.of_next {o : Host.Outcome State Fault Refusal} {a : State} (h : SameOutcome (.next a) o) :
    ∃ b, o = .next b ∧ DifferInOthers a b := by
  cases h with
  | next hab => exact ⟨_, rfl, hab⟩

theorem SameOutcome.illShaped {o₁ o₂ : Host.Outcome State Fault Refusal} (ho : SameOutcome o₁ o₂) (p : Bool) :
    SameOutcome (Machine.illShaped p o₁) (Machine.illShaped p o₂) := by
  cases p with
  | true => exact ho
  | false => exact .fault .shapeUnderFalsePredicate

/-- SYS with a handler installed: its answer replaces the host context and the registers (47_syscall.md R131, R132). -/
def callHandler (s : State) (t : Task) (k : Handler) (number : Word) : Host.Outcome State Fault Refusal :=
  let answer := Config.syscall k s.hostCtx t.regs number s.draws
  finish { s with hostCtx := answer.1, draws := s.draws + 1 } { t with regs := answer.2 }

theorem execSys_eq (e : Ext) (a b : Arg) (s : State) :
    execSys e a b s = withValue e a s fun t number =>
      match s.handler with
      | none => .fault .noSyscallHandler
      | some k => callHandler s t k number := rfl

section
variable {s₁ s₂ : State} (h : DifferInOthers s₁ s₂)
include h

/-! ## What an instruction reads of the VM -/

theorem DifferInOthers.running : s₂.running = s₁.running := (congrArg State.running h.rest :)

theorem DifferInOthers.codeSize : s₂.codeSize = s₁.codeSize := (congrArg State.codeSize h.rest :)

theorem DifferInOthers.fetch (n : Nat) : s₂.fetch n = s₁.fetch n := (congrArg (State.fetch · n) h.rest :)

theorem DifferInOthers.hostCtx : s₂.hostCtx = s₁.hostCtx := (congrArg State.hostCtx h.rest :)

theorem DifferInOthers.handler : s₂.handler = s₁.handler := (congrArg State.handler h.rest :)

theorem DifferInOthers.params : s₂.params = s₁.params := (congrArg State.params h.rest :)

theorem DifferInOthers.draws : s₂.draws = s₁.draws := (congrArg State.draws h.rest :)

/-! ## What an instruction writes -/

theorem DifferInOthers.answer (c : ResultCode) : DifferInOthers (s₁.answer c) (s₂.answer c) :=
  ⟨congrArg (State.answer · c) h.rest, h.current⟩

theorem DifferInOthers.setRunning (r : Bool) : DifferInOthers { s₁ with running := r } { s₂ with running := r } :=
  ⟨congrArg (fun s : State => { s with running := r }) h.rest, h.current⟩

theorem DifferInOthers.setHostCtx (ctx : HostCtx) (n : Nat) :
    DifferInOthers { s₁ with hostCtx := ctx, draws := n } { s₂ with hostCtx := ctx, draws := n } :=
  ⟨congrArg (fun s : State => { s with hostCtx := ctx, draws := n }) h.rest, h.current⟩

/-- Writing back a record of the current task makes it the current task of both. -/
theorem DifferInOthers.putTask {t t' : Task} (ht : s₁.currentTask = some t) (hh : t'.handle = t.handle) :
    DifferInOthers (s₁.putTask t') (s₂.putTask t') where
  rest := congrArg (fun s : State => { s with ring := putInRing t' s₂.ring }) h.rest
  current := (State.currentTask_putTask ht hh).trans (State.currentTask_putTask (h.current ▸ ht) hh).symm

/-! ## The ways an operation ends -/

theorem DifferInOthers.same_raise (c : ResultCode) : SameOutcome (raise s₁ c) (raise s₂ c) := .next (h.answer c)

theorem DifferInOthers.same_finish {t t' : Task} (ht : s₁.currentTask = some t) (hh : t'.handle = t.handle) :
    SameOutcome (finish s₁ t') (finish s₂ t') :=
  .next ((h.putTask ht hh).answer .ok)

/-- A body that has the same outcome on both for every current task has it when it is run on the current one. -/
theorem DifferInOthers.same_onCurrent {body₁ body₂ : Task → Host.Outcome State Fault Refusal}
    (hbody : ∀ t, s₁.currentTask = some t → SameOutcome (body₁ t) (body₂ t)) :
    SameOutcome (onCurrent s₁ body₁) (onCurrent s₂ body₂) := by
  unfold onCurrent
  rw [← h.current]
  cases ht : s₁.currentTask with
  | none => exact .fault .noCurrentTask
  | some t => exact hbody t ht

theorem DifferInOthers.same_codeOverflow : SameOutcome (codeOverflow s₁) (codeOverflow s₂) :=
  (h.setRunning false).same_raise .codeOverflow

/-! ## The shared shapes of instructions -/

theorem DifferInOthers.same_branchTo {t t' : Task} (ht : s₁.currentTask = some t) (hh : t'.handle = t.handle)
    (target : Word) :
    SameOutcome (branchTo s₁ t' target) (branchTo s₂ t' target) := by
  unfold branchTo
  rw [h.codeSize]
  split
  · exact .fault .negativeTarget
  · split
    · exact (h.putTask ht hh).same_raise .jmpOverflow
    · exact h.same_finish ht hh

theorem DifferInOthers.same_regDest (f : Word → Word → Except Fault Word) (e : Ext) (a b : Arg) :
    SameOutcome (regDest f e a b s₁) (regDest f e a b s₂) := by
  refine h.same_onCurrent fun t ht => ?_
  cases argRegIndex a with
  | none => exact (h.same_raise .argNotReg).illShaped _
  | some d =>
    cases argValue t b with
    | none => exact (SameOutcome.fault .noneOperand).illShaped _
    | some v =>
      dsimp only
      split
      · cases f (t.readReg d) v with
        | error r => exact .fault r
        | ok r => exact h.same_finish ht rfl
      · rw [h.params]
        exact h.same_finish ht (by split <;> rfl)

theorem DifferInOthers.same_withValue (e : Ext) (a : Arg)
    {effect₁ effect₂ : Task → Word → Host.Outcome State Fault Refusal}
    (heffect : ∀ t v, s₁.currentTask = some t → SameOutcome (effect₁ t v) (effect₂ t v)) :
    SameOutcome (withValue e a s₁ effect₁) (withValue e a s₂ effect₂) := by
  refine h.same_onCurrent fun t ht => ?_
  cases argValue t a with
  | none => exact (SameOutcome.fault .noneOperand).illShaped _
  | some v =>
    dsimp only
    split
    · exact heffect t v ht
    · exact h.same_finish ht rfl

/-! ## The instructions -/

theorem DifferInOthers.same_execEnd (e : Ext) (a b : Arg) : SameOutcome (execEnd e a b s₁) (execEnd e a b s₂) := by
  refine h.same_onCurrent fun t _ => ?_
  rw [h.running]
  exact .next ((h.setRunning _).answer .ok)

theorem DifferInOthers.same_execPush (e : Ext) (a b : Arg) : SameOutcome (execPush e a b s₁) (execPush e a b s₂) := by
  refine h.same_onCurrent fun t ht => ?_
  cases pushShape t a b with
  | badOrder => exact (h.same_raise .pushArgBadOrder).illShaped _
  | badForm => exact (SameOutcome.fault .badStackForm).illShaped _
  | values vs =>
    dsimp only
    split
    · split
      · exact h.same_raise .stkOverflow
      · exact h.same_finish ht (t.dsPushAll_handle vs)
    · exact h.same_finish ht rfl

theorem DifferInOthers.same_execPop (e : Ext) (a b : Arg) : SameOutcome (execPop e a b s₁) (execPop e a b s₂) := by
  refine h.same_onCurrent fun t ht => ?_
  cases popShape a b with
  | badOrder => exact (SameOutcome.fault .popBadOrder).illShaped _
  | badForm => exact (SameOutcome.fault .badStackForm).illShaped _
  | registers rs =>
    dsimp only
    split
    · split
      · exact h.same_raise .stkUnderflow
      · rw [h.params]
        exact h.same_finish ht (popInto_handle _ t rs)
    · exact h.same_finish ht rfl

theorem DifferInOthers.same_execCmp (e : Ext) (a b : Arg) : SameOutcome (execCmp e a b s₁) (execCmp e a b s₂) := by
  refine h.same_onCurrent fun t ht => ?_
  cases argValue t a with
  | none => exact (SameOutcome.fault .noneOperand).illShaped _
  | some v =>
    cases argValue t b with
    | none => exact (SameOutcome.fault .noneOperand).illShaped _
    | some w => exact h.same_finish ht (by split <;> rfl)

theorem DifferInOthers.same_execClf (e : Ext) (a b : Arg) : SameOutcome (execClf e a b s₁) (execClf e a b s₂) :=
  h.same_onCurrent fun _ ht => h.same_finish ht rfl

theorem DifferInOthers.same_execJmp (e : Ext) (a b : Arg) : SameOutcome (execJmp e a b s₁) (execJmp e a b s₂) :=
  h.same_withValue e a fun _ v ht => h.same_branchTo ht rfl v

theorem DifferInOthers.same_execInv (e : Ext) (a b : Arg) : SameOutcome (execInv e a b s₁) (execInv e a b s₂) := by
  refine h.same_withValue e a fun t v ht => ?_
  split
  · exact h.same_raise .callStkOverflow
  · exact h.same_branchTo ht (t.csPush_handle t.pc) v

theorem DifferInOthers.same_execRet (e : Ext) (a b : Arg) : SameOutcome (execRet e a b s₁) (execRet e a b s₂) := by
  refine h.same_onCurrent fun t ht => ?_
  split
  · exact h.same_raise .callStkUnderflow
  · exact h.same_finish ht t.csPop_task_handle

/-- The handler gets the same host context, registers, number and count of draws, so its answer is the same
(47_syscall.md R131, R134). -/
theorem DifferInOthers.same_syscall {t : Task} (ht : s₁.currentTask = some t) (k : Handler) (number : Word) :
    SameOutcome (callHandler s₁ t k number) (callHandler s₂ t k number) := by
  unfold callHandler
  rw [h.hostCtx, h.draws]
  exact (h.setHostCtx _ _).same_finish ht rfl

theorem DifferInOthers.same_execSys (e : Ext) (a b : Arg) : SameOutcome (execSys e a b s₁) (execSys e a b s₂) := by
  rw [execSys_eq, execSys_eq]
  refine h.same_withValue e a fun t v ht => ?_
  rw [h.handler]
  cases s₁.handler with
  | none => exact .fault .noSyscallHandler
  | some k => exact h.same_syscall ht k v

/-- No instruction observes another task. -/
theorem DifferInOthers.same_exec (i : Instr) : SameOutcome (exec i s₁) (exec i s₂) := by
  cases i with
  | nop e a b => exact .next (h.answer .ok)
  | endVm e a b => exact h.same_execEnd e a b
  | push e a b => exact h.same_execPush e a b
  | pop e a b => exact h.same_execPop e a b
  | cmp e a b => exact h.same_execCmp e a b
  | clf e a b => exact h.same_execClf e a b
  | jmp e a b => exact h.same_execJmp e a b
  | inv e a b => exact h.same_execInv e a b
  | ret e a b => exact h.same_execRet e a b
  | sys e a b => exact h.same_execSys e a b
  | mov e a b => exact h.same_regDest (fun _ src => .ok src) e a b
  | add e a b => exact h.same_regDest addWords e a b
  | sub e a b => exact h.same_regDest subWords e a b
  | mul e a b => exact h.same_regDest mulWords e a b
  | div e a b => exact h.same_regDest divWords e a b
  | and e a b => exact h.same_regDest andWords e a b
  | or e a b => exact h.same_regDest orWords e a b
  | xor e a b => exact h.same_regDest xorWords e a b
  | shl e a b => exact h.same_regDest shlWords e a b
  | shr e a b => exact h.same_regDest shrWords e a b

/-! ## The cycle -/

/-- The bound check, the fetch and the instruction's own effect are the same on both. -/
theorem DifferInOthers.same_cycleTask {t : Task} (ht : s₁.currentTask = some t) :
    SameOutcome (cycleTask s₁ t) (cycleTask s₂ t) := by
  unfold cycleTask
  rw [h.codeSize, h.fetch]
  split
  · exact h.same_codeOverflow
  · cases s₁.fetch (u32 t.pc) with
    | ok i => exact (h.putTask ht (t.advance_handle i.length)).same_exec i
    | error x =>
      cases x with
      | noWord => exact h.same_codeOverflow
      | immPastEnd => exact .fault .immPastEnd
      | unknownOpcode op n => exact (h.putTask ht (t.advance_handle (1 + n))).same_raise .unknownInstruction

theorem DifferInOthers.same_cycle : SameOutcome (cycle s₁) (cycle s₂) := by
  unfold cycle
  rw [h.running]
  split
  · exact h.same_onCurrent fun _ ht => h.same_cycleTask ht
  · exact h.same_raise .notRunning

end

/-- Settles O57: the two outcomes of a cycle are the same one, by `DifferInOthers.same_cycle`. -/
theorem cycleIsBlindToOtherTasks : Obligations.CycleIsBlindToOtherTasks := by
  intro s₁ s₂ hrest hcurrent
  have same := DifferInOthers.same_cycle ⟨hrest, hcurrent⟩
  constructor
  · intro r hfault
    rw [hfault] at same
    exact same.of_fault
  · intro a hnext
    rw [hnext] at same
    obtain ⟨b, hb, hab⟩ := same.of_next
    exact ⟨b, hb, hab.rest, hab.current⟩

end Sys2Proof.Machine
end

section
/-! PROOFS. A loaded image reads as its words, byte by byte and word by word (20_memory.md R45, R46). -/

namespace Sys2Proof.Machine

/-- A word is its four bytes joined again: bit `i` comes from byte `i / 8` and from no other (R46, 30_encoding.md
R61). -/
theorem joinBytes_byteOf (w : Word) : joinBytes (byteOf w 0) (byteOf w 1) (byteOf w 2) (byteOf w 3) = w := by
  apply BitVec.eq_of_getLsbD_eq
  intro i hi
  simp only [joinBytes, byteOf, BitVec.getLsbD_or, BitVec.getLsbD_shiftLeft, BitVec.getLsbD_setWidth,
    BitVec.getLsbD_extractLsb']
  grind

/-- The memory of a loaded image holds byte `k` of word `i` at address `4 i + k`. -/
theorem CodeImage.read_ofWords (words : List Word) (m : ImageMeta) {i k : Nat} (hi : i < words.length) (hk : k < 4) :
    Memory.read (CodeImage.ofWords words m).bytes (4 * i + k) = byteOf words[i] k := by
  have hread := Memory.read_ofBytes 0 (bytesOfWords words) (4 * i + k) (by simp; omega)
  rw [Nat.zero_add, getElem_bytesOfWords words i k hi hk] at hread
  exact hread

theorem CodeImage.readByte_ofWords (words : List Word) (m : ImageMeta) (i : Nat) {k : Nat} (hk : k < 4) :
    (CodeImage.ofWords words m).readByte (4 * i + k) = (words[i]?).map (fun w => byteOf w k) := by
  unfold CodeImage.readByte
  rw [CodeImage.ofWords_size]
  by_cases hi : i < words.length
  · rw [if_pos (by omega), CodeImage.read_ofWords words m hi hk, List.getElem?_eq_getElem hi]
    rfl
  · rw [if_neg (by omega), List.getElem?_eq_none (by omega)]
    rfl

theorem CodeImage.codeRead_ofWords (words : List Word) (m : ImageMeta) (i : Nat) :
    (CodeImage.ofWords words m).codeRead i = words[i]? := by
  by_cases hi : i < words.length
  · have byte {k : Nat} (hk : k < 4) := CodeImage.read_ofWords words m hi hk
    have byte0 := byte (k := 0) (by decide)
    rw [Nat.add_zero] at byte0
    unfold CodeImage.codeRead
    rw [CodeImage.ofWords_size, if_pos hi, byte0, byte (k := 1) (by decide), byte (k := 2) (by decide),
      byte (k := 3) (by decide), joinBytes_byteOf, List.getElem?_eq_getElem hi]
  · have hi' : words.length ≤ i := by omega
    rw [List.getElem?_eq_none hi']
    exact (CodeImage.codeRead_eq_none _ i).mpr hi'

/-- Settles O8: every byte and every word of the image, at indices within it and past it. -/
theorem loadedImageReadsAsItsWords : Obligations.LoadedImageReadsAsItsWords := by
  intro words m
  exact ⟨fun i k hk => CodeImage.readByte_ofWords words m i hk, CodeImage.codeRead_ofWords words m⟩

end Sys2Proof.Machine
end

section
/-! PROOFS. What writes memory over a cycle (20_memory.md R52): only PUSH a data stack, only INV a call stack, and
nothing the code image. -/

namespace Sys2Proof.Machine

/-- Only PUSH writes the data stack (R52). -/
theorem TaskEffect.ds_eq_or_push {n : Nat} {p : Params} {t t' : Task} {i : Instr} {c : ResultCode}
    (h : TaskEffect n p t i c t') : t'.ds = t.ds ∨ ∃ e a b, i = .push e a b := by
  cases h with
  | push e a b => exact .inr ⟨e, a, b, rfl⟩
  | regSkip _ d => exact .inl (by split <;> rfl)
  | pop e a b rs => exact .inl (popInto_ds _ t rs)
  | regWrite | error | skip | nop | endVm | cmp | clf | jmp | inv | invOver | ret | sys => exact .inl rfl

/-- Only INV writes the call stack (R52). -/
theorem TaskEffect.cs_eq_or_inv {n : Nat} {p : Params} {t t' : Task} {i : Instr} {c : ResultCode}
    (h : TaskEffect n p t i c t') : t'.cs = t.cs ∨ ∃ e a b, i = .inv e a b := by
  cases h with
  | inv e a b | invOver e a b => exact .inr ⟨e, a, b, rfl⟩
  | regSkip _ d => exact .inl (by split <;> rfl)
  | push e a b vs => exact .inl (t.dsPushAll_cs vs)
  | pop e a b rs => exact .inl (popInto_cs _ t rs)
  | regWrite | error | skip | nop | endVm | cmp | clf | jmp | ret | sys => exact .inl rfl

/-- A cycle that writes a stack of the current task executes the instruction that does. -/
theorem TaskCycle.fetches_of_stack_ne {s : State} {t t' : Task} {c : ResultCode} (h : TaskCycle s t c t') :
    (t'.ds ≠ t.ds → ∃ e a b, s.fetches t (.push e a b)) ∧ (t'.cs ≠ t.cs → ∃ e a b, s.fetches t (.inv e a b)) := by
  cases h with
  | codeOverflow | unknown => exact ⟨absurd rfl, absurd rfl⟩
  | executed i _ _ hf heffect =>
    constructor
    · obtain hds | ⟨e, a, b, rfl⟩ := heffect.ds_eq_or_push
      · exact absurd hds
      · exact fun _ => ⟨e, a, b, hf⟩
    · obtain hcs | ⟨e, a, b, rfl⟩ := heffect.cs_eq_or_inv
      · exact absurd hcs
      · exact fun _ => ⟨e, a, b, hf⟩

/-- The record of any task before and after: the current task's and what it becomes, or the same one. -/
theorem CurrentBecomes.task_cases {s s' : State} {u u' t t' : Task} {x : Handle} (h : CurrentBecomes s s' u')
    (hu : s.currentTask = some u) (ht : s.task x = some t) (ht' : s'.task x = some t') :
    (s.cur = some x ∧ t = u ∧ t' = u') ∨ t' = t := by
  by_cases hx : s.cur = some x
  · have hx' : s'.cur = some x := h.others.cur.trans hx
    have hcurrent : s.currentTask = some t := by simpa only [State.currentTask, hx] using ht
    have hcurrent' : s'.currentTask = some t' := by simpa only [State.currentTask, hx'] using ht'
    exact .inl ⟨hx, Option.some.inj (hcurrent.symm.trans hu), Option.some.inj (hcurrent'.symm.trans h.current)⟩
  · rw [h.others.tasks x hx, ht] at ht'
    exact .inr (Option.some.inj ht').symm

/-- Settles O50: the frame of a cycle keeps the image and the other tasks' records, and `TaskCycle` says which
instruction wrote a stack of the current one. -/
theorem onlyPushAndInvWriteMemory : Obligations.OnlyPushAndInvWriteMemory := by
  intro s s' hc h
  have hothers := cycleLeavesOthersUnchanged s s' hc h
  refine ⟨fun n => by simp only [State.readByte, hothers.code], fun x t t' ht ht' => ?_⟩
  rw [step_eq_cycle hc] at h
  obtain ⟨-, rfl⟩ | ⟨u, u', hu, hbecomes, htask⟩ := cycle_becomes h
  · cases ht.symm.trans ht'
    exact ⟨absurd rfl, absurd rfl⟩
  obtain ⟨hx, rfl, rfl⟩ | rfl := hbecomes.task_cases hu ht ht'
  · obtain ⟨hpush, hinv⟩ := htask.fetches_of_stack_ne
    exact ⟨fun hds => ⟨hx, hpush hds⟩, fun hcs => ⟨hx, hinv hcs⟩⟩
  · exact ⟨absurd rfl, absurd rfl⟩

end Sys2Proof.Machine
end

section
/-! PROOFS. The four bytes of an instruction word: `pack` and `unpack` as arithmetic, and that each undoes the other
(30_encoding.md R61). -/

namespace Sys2Proof

open Sys2Proof.Machine

/-- Byte `k` of a word as a digit to the base 2^8. -/
theorem toNat_byteOf (w : Word) (k : Nat) : (byteOf w k).toNat = w.toNat / 2 ^ (8 * k) % 2 ^ 8 := by
  rw [byteOf, BitVec.extractLsb'_toNat, Nat.shiftRight_eq_div_pow]

/-- The bytes of a packed word are the ones it was packed from, bit by bit: the four fields do not overlap. -/
theorem unpack_pack (op e a b : Byte) : unpack (pack op e a b) = (op, e, a, b) := by
  simp only [unpack, Prod.mk.injEq]
  refine ⟨?op, ?ext, ?arg1, ?arg2⟩
  all_goals
    apply BitVec.eq_of_getLsbD_eq
    intro i hi
    simp only [pack, joinBytes, byteOf, BitVec.getLsbD_or, BitVec.getLsbD_shiftLeft, BitVec.getLsbD_setWidth,
      BitVec.getLsbD_extractLsb']
    grind

theorem pack_unpack (w : Word) : pack (unpack w).1 (unpack w).2.1 (unpack w).2.2.1 (unpack w).2.2.2 = w :=
  joinBytes_byteOf w

/-- Where each byte of a packed word is found. -/
theorem byteOf_pack (op e a b : Byte) :
    byteOf (pack op e a b) 0 = op ∧ byteOf (pack op e a b) 1 = e ∧ byteOf (pack op e a b) 2 = a ∧
      byteOf (pack op e a b) 3 = b := by
  simpa only [unpack, Prod.mk.injEq] using unpack_pack op e a b

/-- The unpacked bytes as digits; the top one needs no reduction, a word having 32 bits. -/
theorem toNat_unpack (w : Word) :
    (unpack w).1.toNat = w.toNat % 2 ^ 8 ∧ (unpack w).2.1.toNat = w.toNat / 2 ^ 8 % 2 ^ 8 ∧
      (unpack w).2.2.1.toNat = w.toNat / 2 ^ 16 % 2 ^ 8 ∧ (unpack w).2.2.2.toNat = w.toNat / 2 ^ 24 :=
  have hw := w.isLt
  ⟨(toNat_byteOf w 0).trans (by omega), toNat_byteOf w 1, toNat_byteOf w 2, (toNat_byteOf w 3).trans (by omega)⟩

/-- A packed word is the sum of its bytes, each at its place: they are its digits to the base 2^8. -/
theorem toNat_pack (op e a b : Byte) :
    (pack op e a b).toNat = op.toNat + e.toNat * 2 ^ 8 + a.toNat * 2 ^ 16 + b.toNat * 2 ^ 24 := by
  have digits := toNat_unpack (pack op e a b)
  simp only [unpack_pack] at digits
  omega

/-- Settles O3: the bytes are the digits of the word to the base 2^8. -/
theorem packAndUnpackAreInverse : Obligations.PackAndUnpackAreInverse :=
  ⟨toNat_pack, toNat_unpack, unpack_pack, pack_unpack⟩

end Sys2Proof
end

section
/-! PROOFS. The decoder and the encoder undo each other, and what the argument-type bytes say, of the argument and of the
number of literals (30_encoding.md R60 to R66). -/

namespace Sys2Proof

open Sys2Proof.Machine

/-! ## One argument (R64) -/

theorem decodeArg_of_zero {b : Byte} (h : b.toNat = 0) (rest : List Word) : decodeArg b rest = .ok (.none, rest) :=
  if_pos h

theorem decodeArg_of_reg {b : Byte} {r : RegNum} (h : b.toNat = r.val + 1) (rest : List Word) :
    decodeArg b rest = .ok (.reg r, rest) := by
  have hr : Fin.ofNat 16 (b.toNat - 1) = r := Fin.ext (by simp only [Fin.ofNat]; omega)
  unfold decodeArg
  rw [if_neg (by omega), if_pos (by omega), hr]

theorem decodeArg_of_imm {b : Byte} (h : b.toNat = 17) (literal : Word) (rest : List Word) :
    decodeArg b (literal :: rest) = .ok (.imm literal, rest) := by
  unfold decodeArg
  rw [if_neg (by omega), if_neg (by omega), if_pos h]

theorem decodeArg_of_reserved {b : Byte} (h : 18 ≤ b.toNat) (rest : List Word) :
    decodeArg b rest = .ok (.reserved b, rest) := by
  unfold decodeArg
  rw [if_neg (by omega), if_neg (by omega), if_neg (by omega)]

/-- Settles O5: one equation of the decoder for each range of codes. -/
theorem argumentTypeCodes : Obligations.ArgumentTypeCodes := by
  intro b t literal rest
  refine ⟨fun h => ⟨decodeArg_of_zero h rest, rfl⟩, fun h => ?_, fun h => ⟨decodeArg_of_imm h literal rest, rfl⟩,
    fun h => ⟨.reserved b, decodeArg_of_reserved h rest, rfl⟩⟩
  exact ⟨⟨b.toNat - 1, by omega⟩, rfl, decodeArg_of_reg (by simp only; omega) rest, rfl⟩

/-- Decoding the byte and the literals of a well-formed argument gives it back. -/
theorem decodeArg_code {a : Arg} (h : a.wellFormed = true) (rest : List Word) :
    decodeArg a.code (a.literals ++ rest) = .ok (a, rest) := by
  cases a with
  | none => exact decodeArg_of_zero rfl rest
  | reg r => exact decodeArg_of_reg (by simp only [Arg.code, BitVec.toNat_ofNat]; omega) rest
  | imm literal => exact decodeArg_of_imm rfl literal rest
  | reserved code => exact decodeArg_of_reserved (of_decide_eq_true h) rest

/-- Only a missing literal stops the decoding of an argument. -/
theorem exists_decodeArg {b : Byte} {rest : List Word} (h : (if b = 17 then 1 else 0) ≤ rest.length) :
    ∃ a, decodeArg b rest = .ok (a, rest.drop (if b = 17 then 1 else 0)) := by
  by_cases hb : b = 17
  · subst hb
    cases rest with
    | nil => exact absurd h (by decide)
    | cons literal rest => exact ⟨.imm literal, decodeArg_of_imm rfl literal rest⟩
  · have hne : b.toNat ≠ 17 := fun e => hb (BitVec.eq_of_toNat_eq e)
    rw [if_neg hb, List.drop_zero]
    obtain h0 | ⟨h1, h16⟩ | h18 : b.toNat = 0 ∨ (1 ≤ b.toNat ∧ b.toNat ≤ 16) ∨ 18 ≤ b.toNat := by omega
    · exact ⟨_, decodeArg_of_zero h0 rest⟩
    · exact ⟨.reg ⟨b.toNat - 1, by omega⟩, decodeArg_of_reg (by simp only; omega) rest⟩
    · exact ⟨_, decodeArg_of_reserved h18 rest⟩

/-! ## The whole instruction -/

/-- An instruction is the one that its opcode and its fields select. -/
theorem instrOf_opcode (i : Instr) : instrOf i.opcode i.ext i.arg1 i.arg2 = some i := by
  cases i <;> rfl

/-- A word decodes when both arguments do, the second from the words that the first leaves, and the opcode is known. -/
theorem decode_cons_eq_ok {w : Word} {ws rest : List Word} {i : Instr} :
    decode (w :: ws) = .ok (i, rest) ↔ ∃ a b ws', decodeArg (byteOf w 2) ws = .ok (a, ws') ∧
      decodeArg (byteOf w 3) ws' = .ok (b, rest) ∧
      instrOf (byteOf w 0) (decodeExt (byteOf w 1)) a b = some i := by
  constructor
  · intro h
    simp only [decode] at h
    split at h
    · cases h
    · split at h
      · cases h
      · split at h
        · cases h
        · cases h
          exact ⟨_, _, _, ‹_›, ‹_›, ‹_›⟩
  · rintro ⟨a, b, ws', ha, hb, hi⟩
    simp only [decode, ha, hb, hi]

/-- With all its literals there, a word whose opcode byte selects no instruction is reported with their number. -/
theorem decode_cons_unknown {w : Word} {ws ws' rest : List Word} {a b : Arg}
    (ha : decodeArg (byteOf w 2) ws = .ok (a, ws')) (hb : decodeArg (byteOf w 3) ws' = .ok (b, rest))
    (hop : 20 ≤ (byteOf w 0).toNat) :
    decode (w :: ws) = .error (.unknownOpcode (byteOf w 0) (literalCount w)) := by
  simp only [decode, ha, hb, instrOf_none.mpr hop, decodeArg_literals ha, decodeArg_literals hb, literalCount]

/-- Settles O1: the four bytes are found where `pack` has put them, and each field decodes to itself. -/
theorem decodeOfEncodeGivesInstrBack : Obligations.DecodeOfEncodeGivesInstrBack := by
  intro i rest h
  simp only [Instr.wellFormed, Bool.and_eq_true] at h
  obtain ⟨⟨hext, harg1⟩, harg2⟩ := h
  obtain ⟨bop, bext, barg1, barg2⟩ := byteOf_pack i.opcode i.ext.code i.arg1.code i.arg2.code
  rw [encode, List.cons_append, List.append_assoc, decode_cons_eq_ok, bop, bext, barg1, barg2, decodeExt_code _ hext]
  exact ⟨i.arg1, i.arg2, i.arg2.literals ++ rest, decodeArg_code harg1 _, decodeArg_code harg2 rest, instrOf_opcode i⟩

/-- The decoder answers no term that stands for no words. -/
theorem wellFormed_of_decode {ws rest : List Word} {i : Instr} (h : decode ws = .ok (i, rest)) :
    i.wellFormed = true := by
  obtain ⟨w, rfl, -⟩ := decode_ok h
  obtain ⟨a, b, ws', ha, hb, hi⟩ := decode_cons_eq_ok.mp h
  obtain ⟨-, hext, harg1, harg2⟩ := instrOf_inv hi
  obtain ⟨-, wa, -⟩ := decodeArg_inv ha
  obtain ⟨-, wb, -⟩ := decodeArg_inv hb
  rw [Instr.wellFormed, hext, harg1, harg2, (decodeExt_inv _).2, wa, wb]
  rfl

/-- Settles O2: every byte of the word is the code of the field it decodes to. -/
theorem decodedInstrEncodesToItsWords : Obligations.DecodedInstrEncodesToItsWords := by
  intro ws rest i h
  refine ⟨wellFormed_of_decode h, ?_⟩
  obtain ⟨w, rfl, hop, hext, harg1, harg2, -⟩ := decode_ok h
  have hw : pack (byteOf w 0) (byteOf w 1) (byteOf w 2) (byteOf w 3) = w := pack_unpack w
  rw [encode, hop, hext, (decodeExt_inv _).1, harg1, harg2, hw, List.cons_append]

/-! ## The literals (R63) -/

/-- With as many words after it as it has literals, both arguments of a word decode and take exactly these. -/
theorem exists_decodeArgs {w : Word} {rest : List Word} (h : literalCount w ≤ rest.length) :
    ∃ a b rest', decodeArg (byteOf w 2) rest = .ok (a, rest') ∧
      decodeArg (byteOf w 3) rest' = .ok (b, rest.drop (literalCount w)) := by
  rw [literalCount] at h ⊢
  obtain ⟨a, ha⟩ := exists_decodeArg (b := byteOf w 2) (rest := rest) (by omega)
  obtain ⟨b, hb⟩ := exists_decodeArg (b := byteOf w 3) (rest := rest.drop (if byteOf w 2 = 17 then 1 else 0))
    (by rw [List.length_drop]; omega)
  rw [List.drop_drop] at hb
  exact ⟨a, b, _, ha, hb⟩

/-- An argument has no literal exactly when its byte is not 17. -/
theorem literals_eq_nil_iff {b : Byte} {rest rest' : List Word} {a : Arg} (h : decodeArg b rest = .ok (a, rest')) :
    a.literals = [] ↔ b ≠ 17 := by
  rw [← List.length_eq_zero_iff, decodeArg_literals h]
  by_cases hb : b = 17 <;> simp [hb]

/-- An unknown opcode is reported whatever its arguments are, its literals being there. -/
theorem decode_of_unknown {w : Word} {rest : List Word} (h : literalCount w ≤ rest.length)
    (hop : 20 ≤ (byteOf w 0).toNat) :
    decode (w :: rest) = .error (.unknownOpcode (byteOf w 0) (literalCount w)) := by
  obtain ⟨a, b, rest', ha, hb⟩ := exists_decodeArgs h
  exact decode_cons_unknown ha hb hop

/-- Settles O4: the arguments are decoded before the opcode is looked at, and take their literals from the words. -/
theorem literalsFollowTheArgumentBytes : Obligations.LiteralsFollowTheArgumentBytes := by
  intro w rest h
  refine ⟨fun hop => ?_, decode_of_unknown h⟩
  obtain ⟨a, b, rest', ha, hb⟩ := exists_decodeArgs h
  obtain ⟨i, hi⟩ : ∃ i, instrOf (byteOf w 0) (decodeExt (byteOf w 1)) a b = some i :=
    Option.ne_none_iff_exists'.mp (mt instrOf_none.mp (by omega))
  have hd := decode_cons_eq_ok.mpr ⟨a, b, rest', ha, hb, hi⟩
  obtain ⟨-, -, rfl, rfl⟩ := instrOf_inv hi
  obtain ⟨w', hwords, -, -, -, -, hlength⟩ := decode_ok hd
  obtain ⟨rfl, htail⟩ := List.cons.inj hwords
  have htake : i.arg1.literals ++ i.arg2.literals = rest.take (literalCount w) :=
    List.append_cancel_right (htail.symm.trans (List.take_append_drop _ _).symm)
  exact ⟨i, hd, hlength, htake, literals_eq_nil_iff ha, literals_eq_nil_iff hb⟩

/-! ## The spec's own words (R83) -/

/-- Settles O7: the decoder evaluated on each word. -/
theorem specExampleWordsDecode : Obligations.SpecExampleWordsDecode :=
  ⟨rfl, rfl, rfl, rfl, rfl, rfl, rfl, rfl, rfl, rfl, rfl, rfl, rfl⟩

end Sys2Proof
end

section
/-! PROOFS. The cycle of an unknown opcode (30_encoding.md R67, 40_cycle.md R94). -/

namespace Sys2Proof.Machine

/-- The record of the current task is written back and the error returned; nothing else changes. -/
theorem settles_raise_putTask {s : State} {t t' : Task} (ht : s.currentTask = some t) (hh : t'.handle = t.handle)
    (c : ResultCode) : Settles s t' c (raise (s.putTask t') c) :=
  ⟨_, rfl, by simpa using State.currentTask_putTask ht hh, rfl,
    (OthersUnchanged.putTask ht hh).trans (OthersUnchanged.answer _ _), rfl, rfl, rfl⟩

/-- A running cycle is one of the current task. -/
theorem step_eq_cycleTask {s : State} {t : Task} (hc : s.cycleIsNext) (hr : s.running = true)
    (ht : s.currentTask = some t) : step s = cycleTask s t := by
  rw [step_eq_cycle hc, cycle, if_pos hr, onCurrent_some ht]

/-- Where the words at pc are no instruction for their opcode, pc moves past them and the cycle returns the error. -/
theorem cycleTask_unknown {s : State} {t : Task} {op : Byte} {n : Nat}
    (h : decode (s.fetchWords t.pc.toNat) = .error (.unknownOpcode op n)) :
    cycleTask s t = raise (s.putTask (t.advance (1 + n))) .unknownInstruction := by
  have hin : ¬ s.codeSize ≤ t.pc.toNat := by
    rw [← State.fetchWords_eq_nil]
    intro hnil
    rw [hnil] at h
    cases h
  simp only [cycleTask, u32, if_neg hin, State.fetch, h]

/-- Settles O13: the decoder reports the literals it has consumed with the opcode. -/
theorem unknownOpcodeIsReported : Obligations.UnknownOpcodeIsReported := by
  intro s t w rest hc hr ht hw hop hlit
  have hd := decode_of_unknown hlit hop
  rw [← hw] at hd
  rw [step_eq_cycleTask hc hr ht, cycleTask_unknown hd]
  exact settles_raise_putTask (t' := t.advance _) ht rfl _

end Sys2Proof.Machine
end

section
/-! PROOFS. Ill-formed shapes and suppressed instructions (40_cycle.md R92, R93, R96, R98 to R100): which arguments name a
register or have a value, what each shared shape of instructions answers where an operand is missing, and what it answers
where the predicate is false. -/

namespace Sys2Proof.Machine

/-! ## Arguments and predicates -/

theorem argRegIndex_eq_some {a : Arg} {d : RegNum} : argRegIndex a = some d ↔ a = .reg d := by
  cases a <;> simp [argRegIndex]

theorem argRegIndex_eq_none {a : Arg} : argRegIndex a = none ↔ ∀ d, a ≠ .reg d := by
  cases a <;> simp [argRegIndex]

/-- The arguments without a value are the "none" of the PUSH and POP tables (30_encoding.md R71). -/
theorem argValue_eq_none {t : Task} {a : Arg} : argValue t a = none ↔ argIsNone a = true := by
  cases a <;> simp [argValue, argIsNone]

theorem exists_argValue {a : Arg} (h : argIsNone a = false) (t : Task) : ∃ v, argValue t a = some v := by
  rw [← Option.ne_none_iff_exists', Ne, argValue_eq_none, h]
  decide

/-- Settles O6: the codes 9 .. 255 are the reserved ones, whose predicate is true. -/
theorem predicateFollowsExtByte : Obligations.PredicateFollowsExtByte := by
  intro f
  refine ⟨rfl, rfl, rfl, rfl, rfl, rfl, rfl, rfl, rfl, fun b hb => ?_⟩
  have hreserved : decodeExt b = .reserved b := decodeExt_code (.reserved b) (decide_eq_true hb)
  rw [hreserved]
  rfl

/-! ## A missing operand (R98, R99) -/

theorem illShaped_fault (p : Bool) (r : Fault) :
    illShaped p (.fault r) = .fault (if p then r else .shapeUnderFalsePredicate) := by
  cases p <;> rfl

/-- The ten register-destination instructions are the template with an operation of their own (R103). -/
theorem exists_exec_eq_regDest {i : Instr} (h : isRegDest i = true) :
    ∃ f, ∀ s, exec i s = regDest f i.ext i.arg1 i.arg2 s := by
  cases i with
  | mov => exact ⟨fun _ src => .ok src, fun _ => rfl⟩
  | add => exact ⟨addWords, fun _ => rfl⟩
  | sub => exact ⟨subWords, fun _ => rfl⟩
  | mul => exact ⟨mulWords, fun _ => rfl⟩
  | div => exact ⟨divWords, fun _ => rfl⟩
  | and => exact ⟨andWords, fun _ => rfl⟩
  | or => exact ⟨orWords, fun _ => rfl⟩
  | xor => exact ⟨xorWords, fun _ => rfl⟩
  | shl => exact ⟨shlWords, fun _ => rfl⟩
  | shr => exact ⟨shrWords, fun _ => rfl⟩
  | nop | endVm | push | pop | cmp | clf | jmp | inv | ret | sys => cases h

theorem regDest_of_no_register {f : Word → Word → Except Fault Word} {e : Ext} {a b : Arg} {s : State} {t : Task}
    (ht : s.currentTask = some t) (ha : ∀ d, a ≠ .reg d) :
    regDest f e a b s = illShaped (t.flags.holds e) (raise s .argNotReg) := by
  simp only [regDest, onCurrent_some ht, argRegIndex_eq_none.mpr ha]

theorem regDest_of_no_value {f : Word → Word → Except Fault Word} {e : Ext} {d : RegNum} {b : Arg} {s : State} {t : Task}
    (ht : s.currentTask = some t) (hb : argIsNone b = true) :
    regDest f e (.reg d) b s = illShaped (t.flags.holds e) (.fault .noneOperand) := by
  simp only [regDest, onCurrent_some ht, argRegIndex, argValue_eq_none.mpr hb]

theorem withValue_of_no_value {e : Ext} {a : Arg} {s : State} {t : Task}
    {effect : Task → Word → Host.Outcome State Fault Refusal} (ht : s.currentTask = some t) (ha : argIsNone a = true) :
    withValue e a s effect = illShaped (t.flags.holds e) (.fault .noneOperand) := by
  simp only [withValue, onCurrent_some ht, argValue_eq_none.mpr ha]

theorem execCmp_of_no_value {e : Ext} {a b : Arg} {s : State} {t : Task} (ht : s.currentTask = some t)
    (h : argIsNone a = true ∨ argIsNone b = true) :
    execCmp e a b s = illShaped (t.flags.holds e) (.fault .noneOperand) := by
  rw [execCmp, onCurrent_some ht]
  cases ha : argValue t a with
  | none => rfl
  | some v =>
    have hb : argIsNone b = true := h.resolve_left fun hnone => by simp [argValue_eq_none.mpr hnone] at ha
    rw [argValue_eq_none.mpr hb]

/-- Settles O32: the two missing operands of the template, each under either predicate. -/
theorem registerDestinationShapeErrors : Obligations.RegisterDestinationShapeErrors := by
  intro s t i hi ht
  obtain ⟨f, hexec⟩ := exists_exec_eq_regDest hi
  rw [hexec]
  refine ⟨fun ha hp => ?_, fun ha hp => ?_, fun d ha hb => ?_⟩
  · rw [regDest_of_no_register ht ha, hp]
    exact settles_raise ht .argNotReg
  · rw [regDest_of_no_register ht ha, hp]
    rfl
  · rw [ha, regDest_of_no_value ht hb, illShaped_fault]

/-- Settles O48: CMP needs two values, the others one, and SYS its handler after that. -/
theorem missingValueOrHandlerIsUndefined : Obligations.MissingValueOrHandlerIsUndefined := by
  intro s t e a b ht
  refine ⟨fun h => ?_, fun ha => ?_, fun ha hp hh => ?_⟩
  · exact (execCmp_of_no_value ht h).trans (illShaped_fault _ _)
  · rintro i (rfl | rfl | rfl) <;> exact (withValue_of_no_value ht ha).trans (illShaped_fault _ _)
  · obtain ⟨v, hv⟩ := exists_argValue ha t
    rw [exec, execSys_eq, withValue_some ht hv, if_pos hp, hh]

/-! ## A false predicate (R93, R96, R100) -/

/-- The flags that a suppressed register-destination instruction leaves, `d` being its destination: step 7 runs on the
unchanged destination where NZZ_ON_SUPPRESSED says so (R96). -/
def Task.suppressedFlags (t : Task) (p : Params) (d : RegNum) : Flags :=
  if p.nzzOnSuppressed then nzzFlags t.flags t.regs[d] else t.flags

theorem nzzFlags_eq_setNZZ (f : Flags) (v : Word) : nzzFlags f v = f.setNZZ v := by
  simp only [nzzFlags, ne_eq, decide_not]
  rfl

theorem Task.suppressed_eq (t : Task) (p : Params) (d : RegNum) :
    (if p.nzzOnSuppressed then t.setNZZ (t.readReg d) else t) = { t with flags := t.suppressedFlags p d } := by
  rw [suppressedFlags, nzzFlags_eq_setNZZ]
  split <;> rfl

theorem pushShape_of_accepts {a b : Arg} (h : pushAccepts a b) (t : Task) : ∃ vs, pushShape t a b = .values vs := by
  obtain ⟨v, rfl, hb⟩ | ⟨d, rfl, hb⟩ | ⟨lo, hi, hlt, rfl, rfl⟩ := h
  · exact ⟨[v], if_pos hb⟩
  · cases b with
    | none | reserved => exact ⟨[t.readReg d], rfl⟩
    | reg | imm => cases hb
  · exact ⟨_, if_neg hlt.not_ge⟩

theorem popShape_of_accepts {a b : Arg} (h : popAccepts a b) : ∃ rs, popShape a b = .registers rs := by
  obtain ⟨d, rfl, hb⟩ | ⟨lo, hi, hlt, rfl, rfl⟩ := h
  · cases b with
    | none | reserved => exact ⟨[d], rfl⟩
    | reg | imm => cases hb
  · exact ⟨_, if_neg hlt.not_ge⟩

section
variable {s : State} {t : Task} {e : Ext} (ht : s.currentTask = some t) (hp : t.flags.holds e = false)
include ht hp

theorem execEnd_suppressed (a b : Arg) : Settles s t .ok (execEnd e a b s) := by
  simp only [execEnd, onCurrent_some ht, hp]
  exact settles_raise ht .ok

theorem execPush_suppressed {a b : Arg} (h : pushAccepts a b) : Settles s t .ok (execPush e a b s) := by
  obtain ⟨vs, hvs⟩ := pushShape_of_accepts h t
  simp only [execPush, onCurrent_some ht, hvs, hp]
  exact settles_finish ht rfl

theorem execPop_suppressed {a b : Arg} (h : popAccepts a b) : Settles s t .ok (execPop e a b s) := by
  obtain ⟨rs, hrs⟩ := popShape_of_accepts h
  simp only [execPop, onCurrent_some ht, hrs, hp]
  exact settles_finish ht rfl

theorem execCmp_suppressed {a b : Arg} (ha : argIsNone a = false) (hb : argIsNone b = false) :
    Settles s t .ok (execCmp e a b s) := by
  obtain ⟨v, hv⟩ := exists_argValue ha t
  obtain ⟨w, hw⟩ := exists_argValue hb t
  simp only [execCmp, onCurrent_some ht, hv, hw, hp]
  exact settles_finish ht rfl

theorem withValue_suppressed {a : Arg} (ha : argIsNone a = false)
    (effect : Task → Word → Host.Outcome State Fault Refusal) : Settles s t .ok (withValue e a s effect) := by
  obtain ⟨v, hv⟩ := exists_argValue ha t
  rw [withValue_some ht hv, hp]
  exact settles_finish ht rfl

theorem regDest_suppressed (f : Word → Word → Except Fault Word) {d : RegNum} {b : Arg} {v : Word}
    (hv : argValue t b = some v) :
    Settles s { t with flags := t.suppressedFlags s.params d } .ok (regDest f e (.reg d) b s) := by
  rw [regDest_false ht hp hv, Task.suppressed_eq]
  exact settles_finish ht rfl

end

/-- Settles O47: each shape of instructions by its own rule. -/
theorem suppressedInstructionsHaveNoEffect : Obligations.SuppressedInstructionsHaveNoEffect := by
  intro s t ht
  refine ⟨fun e a b hp => ?gated, fun i d v hi hp hd hv => ?regDest⟩
  case gated =>
    exact ⟨execEnd_suppressed ht hp a b, execPush_suppressed ht hp, execPop_suppressed ht hp, execCmp_suppressed ht hp,
      fun ha => ⟨withValue_suppressed ht hp ha _, withValue_suppressed ht hp ha _, withValue_suppressed ht hp ha _⟩⟩
  case regDest =>
    obtain ⟨f, hexec⟩ := exists_exec_eq_regDest hi
    rw [hexec, hd]
    exact regDest_suppressed ht hp f hv

end Sys2Proof.Machine
end

section
/-! PROOFS. How a cycle begins (40_cycle.md R86 to R91, R103, R104): RUNNING, the current task, the bound check, and the
fetch. -/

namespace Sys2Proof.Machine

/-- Settles O11: the test of RUNNING comes first. -/
theorem cycleWhileNotRunningChangesNothing : Obligations.CycleWhileNotRunningChangesNothing := by
  intro s hc hr
  rw [step_eq_cycle hc, cycle, if_neg (by simp [hr])]
  rfl

/-- Settles O12: the bound check comes before the fetch, and RUNNING is the VM's, so that O11 holds whichever task is
current. -/
theorem codeOverflowHaltsEveryTask : Obligations.CodeOverflowHaltsEveryTask := by
  intro s t hc _ hr ht hpc
  refine ⟨_, ?_, rfl, fun cur => cycleWhileNotRunningChangesNothing _ hc rfl⟩
  rw [step_eq_cycleTask hc hr ht, cycleTask]
  exact if_pos hpc

/-- pc is below CODE_SIZE where the decoder finds a word. -/
theorem not_codeSize_le_of_decode {s : State} {a : Nat} (h : decode (s.fetchWords a) ≠ .error .noWord) :
    ¬ s.codeSize ≤ a := by
  rw [← s.fetchWords_eq_nil a]
  intro hnil
  rw [hnil] at h
  exact h rfl

/-- A decoded instruction is executed on the record whose pc has moved past its words. -/
theorem cycleTask_of_decode {s : State} {t : Task} {i : Instr} {rest : List Word}
    (h : decode (s.fetchWords t.pc.toNat) = .ok (i, rest)) :
    cycleTask s t = exec i (s.putTask (t.advance i.length)) := by
  have hin : ¬ s.codeSize ≤ t.pc.toNat := not_codeSize_le_of_decode (by simp [h])
  simp only [cycleTask, u32, if_neg hin, State.fetch, h]

/-- A missing literal ends the cycle. -/
theorem cycleTask_of_immPastEnd {s : State} {t : Task} (h : decode (s.fetchWords t.pc.toNat) = .error .immPastEnd) :
    cycleTask s t = .fault .immPastEnd := by
  have hin : ¬ s.codeSize ≤ t.pc.toNat := not_codeSize_le_of_decode (by simp [h])
  simp only [cycleTask, u32, if_neg hin, State.fetch, h]

/-- Settles O9: the cycle runs on the record with pc moved, which is the current task's from then on. -/
theorem stepRunsDecodedInstruction : Obligations.StepRunsDecodedInstruction := by
  intro s t i hc hf
  obtain ⟨hr, ht, rest, hd⟩ := hf
  refine ⟨?_, State.currentTask_putTask ht rfl⟩
  rw [step_eq_cycleTask hc hr ht, cycleTask_of_decode hd]
  rfl

/-- An argument whose literal is not there does not decode. -/
theorem decodeArg_of_missing {b : Byte} {rest : List Word} (h : rest.length < if b = 17 then 1 else 0) :
    decodeArg b rest = .error .immPastEnd := by
  by_cases hb : b = 17
  · subst hb
    cases rest with
    | nil => rfl
    | cons => simp at h
  · rw [if_neg hb] at h
    exact absurd h (Nat.not_lt_zero _)

/-- A word that has more literals than words after it does not decode: arg1's literal is missing, or arg1 decodes and
arg2's is. -/
theorem decode_of_missing {w : Word} {rest : List Word} (h : rest.length < literalCount w) :
    decode (w :: rest) = .error .immPastEnd := by
  rw [literalCount] at h
  by_cases h1 : (if byteOf w 2 = 17 then 1 else 0) ≤ rest.length
  · obtain ⟨a, ha⟩ := exists_decodeArg h1
    have hb := decodeArg_of_missing (b := byteOf w 3) (rest := rest.drop (if byteOf w 2 = 17 then 1 else 0))
      (by rw [List.length_drop]; omega)
    simp only [decode, ha, hb]
  · simp only [decode, decodeArg_of_missing (Nat.lt_of_not_le h1)]

/-- Settles O14: the decoder's report of a missing literal, and the search for the current task. -/
theorem cycleUndefinedCases : Obligations.CycleUndefinedCases := by
  refine ⟨fun s t w rest hc hr ht hw hlit => ?_, fun s hc hr ht => ?_⟩
  · have hd := decode_of_missing hlit
    rw [← hw] at hd
    rw [step_eq_cycleTask hc hr ht, cycleTask_of_immPastEnd hd]
  · rw [step_eq_cycle hc, cycle, if_pos hr, onCurrent, ht]

end Sys2Proof.Machine
end

section
/-! PROOFS. What a whole cycle leaves after an error and after a suppressed instruction (40_cycle.md R93, R96, R101): the
pc past the instruction's words, and next to nothing else. -/

namespace Sys2Proof.Machine

/-- What is settled from a state with the current task's record written back is settled from the state before. -/
theorem Settles.of_putTask {s : State} {t u t' : Task} {c : ResultCode} {o : Host.Outcome State Fault Refusal}
    (ht : s.currentTask = some t) (hh : u.handle = t.handle) (h : Settles (s.putTask u) t' c o) : Settles s t' c o := by
  obtain ⟨s', ho, hcurrent, hreply, hothers, hglobals⟩ := h
  exact ⟨s', ho, hcurrent, hreply, (OthersUnchanged.putTask ht hh).trans hothers, hglobals⟩

/-! ## Suppressed instructions -/

/-- An instruction other than CLF and RET that answers with its predicate false changes at most the flags, and those only
if it has a register destination. -/
theorem Effect.of_suppressed {s s' : State} {t : Task} {i : Instr} (ht : s.currentTask = some t) (h : Effect s t i s')
    (hp : t.flags.holds i.ext = false) (hi : ∀ e a b, i ≠ .clf e a b ∧ i ≠ .ret e a b) :
    ∃ f, Settles s { t with flags := f } .ok (.next s') ∧ (isRegDest i = false → f = t.flags) ∧
      (isRegDest i = true → ∃ d, i.arg1 = .reg d ∧ f = t.suppressedFlags s.params d) := by
  have hp' : t.flags.holds i.ext ≠ true := by simp [hp]
  cases h with
  | nop | endSkip => exact ⟨t.flags, settles_raise ht .ok, fun _ => rfl, nofun⟩
  | pushSkip | popSkip | cmpSkip | jmpSkip | invSkip | sysSkip =>
    exact ⟨t.flags, settles_finish ht rfl, fun _ => rfl, nofun⟩
  | regSkip _ d hreg _ hd =>
    refine ⟨t.suppressedFlags s.params d, ?_, by simp [hreg], fun _ => ⟨d, argRegIndex_eq_some.mp hd, rfl⟩⟩
    rw [Task.suppressed_eq]
    exact settles_finish ht rfl
  | clf e a b =>
    obtain ⟨hclf, -⟩ := hi e a b
    exact absurd rfl hclf
  | ret e a b | retEmpty e a b =>
    obtain ⟨-, hret⟩ := hi e a b
    exact absurd rfl hret
  | endRun _ _ _ h | regError _ _ h | regWrite _ _ _ _ h | pushOrder _ _ _ h | pushFull _ _ _ _ h | push _ _ _ _ h
  | popEmpty _ _ _ _ h | pop _ _ _ _ h | cmp _ _ _ _ _ h | jmp _ _ _ _ h | jmpOver _ _ _ _ h | invFull _ _ _ h
  | inv _ _ _ _ h | invOver _ _ _ _ h | sys _ _ _ _ _ h => exact absurd h hp'

/-- Settles O56: the effect of the suppressed instruction on the record whose pc has moved. -/
theorem suppressedInstructionConsumesItsLiterals : Obligations.SuppressedInstructionConsumesItsLiterals := by
  intro s s' t i hc hf hp hi h
  obtain ⟨hexec, hadvanced⟩ := stepRunsDecodedInstruction s t i hc hf
  rw [hexec] at h
  obtain ⟨f, hsettles, hother, hregDest⟩ := (exec_next hadvanced h).of_suppressed hadvanced hp hi
  obtain ⟨-, ht, -⟩ := hf
  obtain ⟨_, hnext, hcurrent, hreply, hothers, hrunning, hctx, -⟩ := hsettles.of_putTask ht (by rfl)
  cases hnext
  refine ⟨hothers, hrunning, hctx, by rw [hreply], f, hcurrent, ?unchanged, fun hn hreg => ?nzz⟩
  case unchanged =>
    rintro (hn | hreg)
    · cases hreg : isRegDest i with
      | false => exact hother hreg
      | true =>
        obtain ⟨d, -, rfl⟩ := hregDest hreg
        exact if_neg (by simp [hn])
    · exact hother hreg
  case nzz =>
    obtain ⟨d, hd, rfl⟩ := hregDest hreg
    exact ⟨d, hd, if_pos hn⟩

/-! ## Errors -/

/-- An instruction that answers an error changes nothing, but that INV's entry stays pushed after JMP_OVERFLOW
(46_control.md R128, D35). -/
theorem Effect.of_error {s s' : State} {t : Task} {i : Instr} (ht : s.currentTask = some t) (h : Effect s t i s')
    (hc : s'.reply.code ≠ .ok) :
    ∃ t', Settles s t' s'.reply.code (.next s') ∧
      (t' = t ∨ (s'.reply.code = .jmpOverflow ∧ (∃ e a b, i = .inv e a b) ∧ t' = t.csPush t.pc)) := by
  cases h with
  | regError | pushOrder | pushFull | popEmpty | invFull | retEmpty => exact ⟨t, settles_raise ht _, .inl rfl⟩
  | jmpOver => exact ⟨t, settles_raise_putTask ht rfl _, .inl rfl⟩
  | invOver e a b => exact ⟨_, settles_raise_putTask ht (by rfl) _, .inr ⟨rfl, ⟨e, a, b, rfl⟩, rfl⟩⟩
  | nop | endRun | endSkip | regWrite | regSkip | push | pushSkip | pop | popSkip | cmp | cmpSkip | clf | jmp | jmpSkip
  | inv | invSkip | ret | sys | sysSkip => exact absurd rfl hc

/-- A cycle that runs and answers an error other than CODE_OVERFLOW has moved pc past the word and its literals, and
changes nothing else but for INV's entry. -/
theorem step_of_error {s s' : State} {t : Task} (hc : s.cycleIsNext) (hr : s.running = true)
    (ht : s.currentTask = some t) (h : step s = .next s') (hok : s'.reply.code ≠ .ok)
    (hover : s'.reply.code ≠ .codeOverflow) :
    ∃ w rest t', s.fetchWords t.pc.toNat = w :: rest ∧ Settles s t' s'.reply.code (.next s') ∧
      (t' = t.advance (1 + literalCount w) ∨ (s'.reply.code = .jmpOverflow ∧ byteOf w 0 = 17 ∧
        t' = (t.advance (1 + literalCount w)).csPush (t.advance (1 + literalCount w)).pc)) := by
  rw [step_eq_cycle hc] at h
  obtain ⟨hstopped, -⟩ | ⟨-, u, hu, ⟨-, rfl⟩ | ⟨i, rest, hd, hx⟩ | ⟨op, n, hd, rfl⟩⟩ := cycle_next h
  · cases hr.symm.trans hstopped
  · exact absurd rfl hover
  · cases ht.symm.trans hu
    obtain ⟨w, hw, hop, -, -, -, hlength⟩ := decode_ok hd
    have hadvanced : (s.putTask (t.advance i.length)).currentTask = some (t.advance i.length) :=
      State.currentTask_putTask ht rfl
    obtain ⟨t', hsettles, ht'⟩ := (exec_next hadvanced hx).of_error hadvanced hok
    refine ⟨w, _, t', hw, hsettles.of_putTask ht (by rfl), ?_⟩
    rw [← hlength]
    refine ht'.imp_right ?_
    rintro ⟨hjmp, ⟨e, a, b, rfl⟩, rfl⟩
    exact ⟨hjmp, hop.symm, rfl⟩
  · cases ht.symm.trans hu
    obtain ⟨w, rest, hw, -, -, rfl, -⟩ := decode_unknown hd
    exact ⟨w, rest, _, hw, settles_raise_putTask ht (by rfl) _, .inl rfl⟩

/-- Settles O54: the record that `step_of_error` leaves, written out. -/
theorem errorsLeaveTheTaskAsItWas : Obligations.ErrorsLeaveTheTaskAsItWas := by
  intro s s' t hc hr ht h hok hover
  obtain ⟨w, rest, t', hw, hsettles, ht'⟩ := step_of_error hc hr ht h hok hover
  obtain ⟨_, hnext, hcurrent, -, hothers, hrunning, hctx, -⟩ := hsettles
  cases hnext
  refine ⟨hothers, hrunning, hctx, w, rest, _, hw, rfl, ?_⟩
  obtain rfl | ⟨hjmp, hop, rfl⟩ := ht'
  · exact .inl hcurrent
  · exact .inr ⟨hjmp, hop, hcurrent⟩

end Sys2Proof.Machine
end

section
/-! PROOFS. NOP, END and MOV (41_move_misc.md R105 to R107), and what the template of the register-destination
instructions writes where the predicate holds (40_cycle.md R95, R103). -/

namespace Sys2Proof.Machine

/-- The record that Exec_regdest writes back, with step 7 (SetNZZ) done. -/
theorem Task.writeReg_setNZZ (t : Task) (d : RegNum) (r : Word) :
    (t.writeReg d r).setNZZ r = { t with regs := t.regs.set d r, flags := nzzFlags t.flags r } := by
  rw [nzzFlags_eq_setNZZ]
  rfl

/-- Exec_regdest with the predicate true, where its operation has a result: the destination, NZ and Z are all it writes. -/
theorem settles_regDest {f : Word → Word → Except Fault Word} {e : Ext} {d : RegNum} {b : Arg} {s : State} {t : Task}
    {v r : Word} (ht : s.currentTask = some t) (hp : t.flags.holds e = true) (hv : argValue t b = some v)
    (hf : f (t.readReg d) v = .ok r) :
    Settles s { t with regs := t.regs.set d r, flags := nzzFlags t.flags r } .ok (regDest f e (.reg d) b s) := by
  rw [regDest_true ht hp hv, hf, ← Task.writeReg_setNZZ]
  exact settles_finish ht rfl

/-- END on a current task always answers OK; the predicate decides what becomes of RUNNING. -/
theorem exec_endVm {s : State} {t : Task} (ht : s.currentTask = some t) (e : Ext) (a b : Arg) :
    exec (.endVm e a b) s =
      .next ({ s with running := if t.flags.holds e then false else s.running }.answer .ok) :=
  onCurrent_some ht _

/-- Settles O25: NOP only answers. -/
theorem nopDoesNothing : Obligations.NopDoesNothing :=
  fun _ _ _ _ => rfl

/-- Settles O26: where the predicate is false, RUNNING is written back as it was. -/
theorem endClearsRunning : Obligations.EndClearsRunning := by
  intro s t e a b ht
  rw [exec_endVm ht]
  refine ⟨fun hp => ?holds, fun hp => ?suppressed⟩
  case holds => rw [hp]; rfl
  case suppressed => rw [hp]; rfl

/-- Settles O27: MOV is the template with the source as its result. -/
theorem movWritesTheSource : Obligations.MovWritesTheSource := by
  intro s t e d b v ht hp hv
  exact settles_regDest (f := fun _ src => .ok src) ht hp hv rfl

end Sys2Proof.Machine
end

section
/-! PROOFS. PUSH and POP (42_stack.md R108 to R112): which shape each pair of arguments has, what each shape answers, which
entry of the data stack each register of a range is pushed to and popped from, and that a matched pair restores a range. -/

namespace Sys2Proof.Machine

/-! ## The shapes of PUSH and POP (R108, R109) -/

theorem pushShape_of_value {t : Task} {a b : Arg} {v : Word} (hv : argValue t a = some v) (hb : argIsNone b = true) :
    pushShape t a b = .values [v] := by
  cases a with
  | none | reserved => cases hv
  | imm =>
    cases hv
    exact if_pos hb
  | reg =>
    cases hv
    cases b with
    | none | reserved => rfl
    | reg | imm => cases hb

theorem pushShape_of_lt (t : Task) {lo hi : RegNum} (h : lo < hi) :
    pushShape t (.reg lo) (.reg hi) = .values ((regRange lo hi).map t.readReg) :=
  if_neg h.not_ge

theorem pushShape_of_le (t : Task) {lo hi : RegNum} (h : hi ≤ lo) : pushShape t (.reg lo) (.reg hi) = .badOrder :=
  if_pos h

/-- A pair of arguments that is neither a form of PUSH nor a range is a bad form. -/
theorem pushShape_of_not_accepts {a b : Arg} (h : ¬ pushAccepts a b) (hrange : ∀ lo hi, ¬ (a = .reg lo ∧ b = .reg hi))
    (t : Task) : pushShape t a b = .badForm := by
  cases a with
  | none | reserved => rfl
  | imm v => exact if_neg fun hb => h (.inl ⟨v, rfl, hb⟩)
  | reg d =>
    cases b with
    | none | reserved => exact absurd (.inr (.inl ⟨d, rfl, rfl⟩)) h
    | reg hi => exact absurd ⟨rfl, rfl⟩ (hrange d hi)
    | imm => rfl

theorem popShape_of_isNone (d : RegNum) {b : Arg} (hb : argIsNone b = true) : popShape (.reg d) b = .registers [d] := by
  cases b with
  | none | reserved => rfl
  | reg | imm => cases hb

theorem popShape_of_lt {lo hi : RegNum} (h : lo < hi) :
    popShape (.reg lo) (.reg hi) = .registers (regRange lo hi).reverse :=
  if_neg h.not_ge

theorem popShape_of_le {lo hi : RegNum} (h : hi ≤ lo) : popShape (.reg lo) (.reg hi) = .badOrder :=
  if_pos h

/-- A pair of arguments that is neither a form of POP nor a range is a bad form. -/
theorem popShape_of_not_accepts {a b : Arg} (h : ¬ popAccepts a b) (hrange : ∀ lo hi, ¬ (a = .reg lo ∧ b = .reg hi)) :
    popShape a b = .badForm := by
  cases a with
  | none | reserved | imm => rfl
  | reg d =>
    cases b with
    | none | reserved => exact absurd (.inl ⟨d, rfl, rfl⟩) h
    | reg hi => exact absurd ⟨rfl, rfl⟩ (hrange d hi)
    | imm => rfl

/-! ## What each shape answers -/

section
variable {s : State} {t : Task} {e : Ext} {a b : Arg} (ht : s.currentTask = some t)
include ht

theorem exec_push_of_badOrder (hs : pushShape t a b = .badOrder) :
    exec (.push e a b) s = illShaped (t.flags.holds e) (raise s .pushArgBadOrder) := by
  simp only [exec, execPush, onCurrent_some ht, hs]

theorem exec_push_of_badForm (hs : pushShape t a b = .badForm) :
    exec (.push e a b) s = .fault (if t.flags.holds e then .badStackForm else .shapeUnderFalsePredicate) := by
  simp only [exec, execPush, onCurrent_some ht, hs, illShaped_fault]

theorem exec_pop_of_badOrder (hs : popShape a b = .badOrder) :
    exec (.pop e a b) s = .fault (if t.flags.holds e then .popBadOrder else .shapeUnderFalsePredicate) := by
  simp only [exec, execPop, onCurrent_some ht, hs, illShaped_fault]

theorem exec_pop_of_badForm (hs : popShape a b = .badForm) :
    exec (.pop e a b) s = .fault (if t.flags.holds e then .badStackForm else .shapeUnderFalsePredicate) := by
  simp only [exec, execPop, onCurrent_some ht, hs, illShaped_fault]

variable (hp : t.flags.holds e = true)
include hp

theorem exec_push_of_values {vs : List Word} (hs : pushShape t a b = .values vs) :
    exec (.push e a b) s =
      if t.ds.length < t.sp + vs.length then raise s .stkOverflow else finish s (t.dsPushAll vs) := by
  simp only [exec, execPush, onCurrent_some ht, hs, hp, if_true]

theorem exec_pop_of_registers {rs : List RegNum} (hs : popShape a b = .registers rs) :
    exec (.pop e a b) s =
      if t.sp < rs.length then raise s .stkUnderflow else finish s (popInto s.params.popSetsNzz t rs) := by
  simp only [exec, execPop, onCurrent_some ht, hs, hp, if_true]

theorem settles_push_full {vs : List Word} (hs : pushShape t a b = .values vs)
    (hfull : t.ds.length < t.sp + vs.length) : Settles s t .stkOverflow (exec (.push e a b) s) := by
  rw [exec_push_of_values ht hp hs, if_pos hfull]
  exact settles_raise ht _

theorem settles_push_room {vs : List Word} (hs : pushShape t a b = .values vs)
    (hroom : t.sp + vs.length ≤ t.ds.length) : Settles s (t.dsPushAll vs) .ok (exec (.push e a b) s) := by
  rw [exec_push_of_values ht hp hs, if_neg hroom.not_gt]
  exact settles_finish ht (t.dsPushAll_handle vs)

theorem settles_pop_empty {rs : List RegNum} (hs : popShape a b = .registers rs) (hempty : t.sp < rs.length) :
    Settles s t .stkUnderflow (exec (.pop e a b) s) := by
  rw [exec_pop_of_registers ht hp hs, if_pos hempty]
  exact settles_raise ht _

theorem settles_pop_enough {rs : List RegNum} (hs : popShape a b = .registers rs) (henough : rs.length ≤ t.sp) :
    Settles s (popInto s.params.popSetsNzz t rs) .ok (exec (.pop e a b) s) := by
  rw [exec_pop_of_registers ht hp hs, if_neg henough.not_gt]
  exact settles_finish ht (popInto_handle _ t rs)

end

/-! ## Register ranges -/

theorem length_regRange {lo hi : RegNum} (h : lo < hi) : (regRange lo hi).length = hi.val - lo.val + 1 := by
  obtain ⟨hlength, -⟩ := regRange_spec lo hi h
  exact hlength

theorem nodup_regRange {lo hi : RegNum} (h : lo < hi) : (regRange lo hi).Nodup := by
  obtain ⟨-, hnodup, -⟩ := regRange_spec lo hi h
  exact hnodup

/-- The range ascends: its entry `k` is the register `k` above Rlo. -/
theorem getElem?_regRange {lo hi : RegNum} (h : lo < hi) {k : Nat} (hk : k ≤ hi.val - lo.val) :
    (regRange lo hi)[k]? = some (Fin.ofNat 16 (lo.val + k)) := by
  obtain ⟨-, -, hentries⟩ := regRange_spec lo hi h
  exact hentries ⟨k, by omega⟩ hk

/-- The register as far above Rlo as `r` is, is `r`. -/
theorem ofNat_add_sub {lo r : RegNum} (h : lo ≤ r) : Fin.ofNat 16 (lo.val + (r.val - lo.val)) = r := by
  apply Fin.ext
  rw [Fin.val_ofNat, Nat.add_sub_cancel' h, Nat.mod_eq_of_lt r.isLt]

theorem mem_regRange {lo hi r : RegNum} : r ∈ regRange lo hi ↔ lo ≤ r ∧ r ≤ hi := by
  have hall : ∀ q, q ∈ allRegs := by decide
  simp [regRange, hall r]

/-! ## Entries of the data stack -/

theorem Task.dsRead_of_getElem? {t : Task} {k : Nat} {v : Word} (h : t.ds[k]? = some v) : t.dsRead k = v := by
  rw [dsRead, List.getD_eq_getElem?_getD, h, Option.getD_some]

theorem Task.getElem?_ds {t : Task} {k : Nat} (h : k < t.ds.length) : t.ds[k]? = some (t.dsRead k) := by
  rw [dsRead, List.getD_eq_getElem _ _ h, List.getElem?_eq_getElem h]

/-- The top `n` entries, counted from the top down or by their indices. -/
theorem Task.exists_top_entry_iff {t : Task} {n : Nat} (hn : n ≤ t.sp) (hsp : t.sp ≤ t.ds.length) (p : Word → Prop) :
    (∃ j < n, p (t.dsRead (t.sp - 1 - j))) ↔ ∃ k v, t.sp - n ≤ k ∧ k < t.sp ∧ t.ds[k]? = some v ∧ p v := by
  constructor
  · rintro ⟨j, hj, hv⟩
    exact ⟨t.sp - 1 - j, _, by omega, by omega, getElem?_ds (by omega), hv⟩
  · rintro ⟨k, v, hlow, hhigh, hk, hv⟩
    refine ⟨t.sp - 1 - k, by omega, ?_⟩
    rwa [show t.sp - 1 - (t.sp - 1 - k) = k by omega, dsRead_of_getElem? hk]

/-- Popping a range gives Rlo the lowest entry popped and each register above it the next entry (R109). -/
theorem popInto_regRange_readReg (setsNzz : Bool) (t : Task) {lo hi r : RegNum} (h : lo < hi) (hlo : lo ≤ r) (hhi : r ≤ hi)
    (henough : hi.val - lo.val + 1 ≤ t.sp) :
    (popInto setsNzz t (regRange lo hi).reverse).readReg r =
      t.dsRead (t.sp - (hi.val - lo.val + 1) + (r.val - lo.val)) := by
  have hlo' : lo.val ≤ r.val := hlo
  have hhi' : r.val ≤ hi.val := hhi
  have hfromTop : (regRange lo hi).reverse[hi.val - r.val]? = some r := by
    rw [List.getElem?_reverse (by rw [length_regRange h]; omega), length_regRange h,
      show hi.val - lo.val + 1 - 1 - (hi.val - r.val) = r.val - lo.val by omega, getElem?_regRange h (by omega),
      ofNat_add_sub hlo]
  rw [popInto_regs setsNzz t _ (List.nodup_reverse.mpr (nodup_regRange h)) _ r hfromTop]
  congr 1
  omega

/-- Popping one register reads the top entry, and sets NZ or Z only where POP_SETS_NZZ says so (R110, R111). -/
theorem popInto_singleton (setsNzz : Bool) (t : Task) (d : RegNum) :
    popInto setsNzz t [d] = { t with
      regs := t.regs.set d (t.dsRead (t.sp - 1)), sp := t.sp - 1,
      flags := if setsNzz then nzzFlags t.flags (t.dsRead (t.sp - 1)) else t.flags } := by
  cases setsNzz with
  | false => rfl
  | true =>
    rw [nzzFlags_eq_setNZZ]
    rfl

/-! ## PUSH -/

/-- Settles O33: the pushed sequence is the one value. -/
theorem pushOneValue : Obligations.PushOneValue := by
  intro s t e a b v ht hp hv hb hroom
  exact ⟨_, settles_push_room ht hp (pushShape_of_value hv hb) hroom,
    t.dsPushAll_pushed [v] _ (fun k hk => by simp) hroom⟩

/-- Settles O34: the pushed sequence is the range's registers, which ascend. -/
theorem pushRange : Obligations.PushRange := by
  intro s t e lo hi ht hp hlt hroom
  have hlength : ((regRange lo hi).map t.readReg).length = hi.val - lo.val + 1 := by
    rw [List.length_map, length_regRange hlt]
  have hentries : ∀ k (hk : k < ((regRange lo hi).map t.readReg).length),
      ((regRange lo hi).map t.readReg)[k] = t.readReg (Fin.ofNat 16 (lo.val + k)) := by
    intro k hk
    apply Option.some.inj
    rw [← List.getElem?_eq_getElem, List.getElem?_map, getElem?_regRange hlt (by omega), Option.map_some]
  rw [← hlength] at hroom ⊢
  exact ⟨_, settles_push_room ht hp (pushShape_of_lt t hlt) hroom, t.dsPushAll_pushed _ _ hentries hroom⟩

/-- Settles O35: each pair of arguments by its shape. -/
theorem pushErrors : Obligations.PushErrors := by
  intro s t e ht
  refine ⟨fun a b v hv hb hfull hp => ?oneFull, fun lo hi hlt hfull hp => ?rangeFull, fun lo hi hle hp => ?badOrder,
    fun lo hi hle hp => ?suppressed, fun a b hform hrange => ?badForm⟩
  case oneFull => exact settles_push_full ht hp (pushShape_of_value hv hb) (Nat.lt_succ_of_le hfull)
  case rangeFull =>
    exact settles_push_full ht hp (pushShape_of_lt t hlt) (by rwa [List.length_map, length_regRange hlt])
  case badOrder =>
    rw [exec_push_of_badOrder ht (pushShape_of_le t hle), hp]
    exact settles_raise ht _
  case suppressed =>
    rw [exec_push_of_badOrder ht (pushShape_of_le t hle), hp]
    rfl
  case badForm => exact exec_push_of_badForm ht (pushShape_of_not_accepts hform hrange t)

/-! ## POP -/

/-- Settles O36: the popped sequence is the one register. -/
theorem popOneRegister : Obligations.PopOneRegister := by
  intro s t e d b v ht hp hb hpos hv
  have h := settles_pop_enough ht hp (popShape_of_isNone d hb) hpos
  rwa [popInto_singleton, Task.dsRead_of_getElem? hv] at h

/-- Settles O37: the popped sequence is the range, highest register first. -/
theorem popRange : Obligations.PopRange := by
  intro s t e lo hi ht hp hlt henough hsp
  have hlength : (regRange lo hi).reverse.length = hi.val - lo.val + 1 := by
    rw [List.length_reverse, length_regRange hlt]
  obtain ⟨hsp', hds, hcs, hhandle, hpc, hrpc, hflags, hothers⟩ :=
    popInto_frame s.params.popSetsNzz t (regRange lo hi).reverse
  refine ⟨_, settles_pop_enough ht hp (popShape_of_lt hlt) (hlength ▸ henough), hlength ▸ hsp', ?popped, ?kept, hds, hcs,
    hrpc, hpc, hhandle, hflags, ?nzz⟩
  case popped =>
    intro r hlo hhi
    have hhi' : r.val ≤ hi.val := hhi
    rw [popInto_regRange_readReg _ t hlt hlo hhi henough]
    exact Task.getElem?_ds (by omega)
  case kept =>
    intro r hr
    apply hothers
    rw [List.mem_reverse, mem_regRange]
    rintro ⟨hlo, hhi⟩
    exact hr.elim hlo.not_gt hhi.not_gt
  case nzz =>
    intro hparam
    have hpopped := popInto_flags t (regRange lo hi).reverse
    rw [hlength, Task.exists_top_entry_iff henough hsp (· ≠ 0), Task.exists_top_entry_iff henough hsp (· = 0)] at hpopped
    rw [hparam]
    exact hpopped

/-- Settles O38: each pair of arguments by its shape. -/
theorem popErrors : Obligations.PopErrors := by
  intro s t e ht
  refine ⟨fun d b hb hempty hp => ?oneEmpty, fun lo hi hlt hfew hp => ?rangeFew, fun lo hi hle => ?badOrder,
    fun a b hform hrange => ?badForm⟩
  case oneEmpty => exact settles_pop_empty ht hp (popShape_of_isNone d hb) (by simp [hempty])
  case rangeFew =>
    exact settles_pop_empty ht hp (popShape_of_lt hlt) (by rwa [List.length_reverse, length_regRange hlt])
  case badOrder => exact exec_pop_of_badOrder ht (popShape_of_le hle)
  case badForm => exact exec_pop_of_badForm ht (popShape_of_not_accepts hform hrange)

/-! ## A matched pair -/

/-- A PUSH of a range that answers OK has pushed the range: without room it would have answered STK_OVERFLOW. -/
theorem pushed_of_ok {s s1 : State} {t t1 : Task} {e : Ext} {lo hi : RegNum} (ht : s.currentTask = some t)
    (hp : t.flags.holds e = true) (hlt : lo < hi) (hpush : exec (.push e (.reg lo) (.reg hi)) s = .next s1)
    (hok : s1.reply.code = .ok) (ht1 : s1.currentTask = some t1) :
    PushedEntries t t1 (hi.val - lo.val + 1) (fun k => t.readReg (Fin.ofNat 16 (lo.val + k))) := by
  by_cases hroom : t.sp + (hi.val - lo.val + 1) ≤ t.ds.length
  · obtain ⟨t', ⟨s', hnext, hcurrent, -⟩, hpushed⟩ := pushRange s t e lo hi ht hp hlt hroom
    cases hpush.symm.trans hnext
    cases ht1.symm.trans hcurrent
    exact hpushed
  · obtain ⟨-, hfull, -⟩ := pushErrors s t e ht
    obtain ⟨s', hnext, -, hreply, -⟩ := hfull lo hi hlt (Nat.lt_of_not_le hroom) hp
    cases hpush.symm.trans hnext
    rw [hreply] at hok
    cases hok

/-- Settles O39: the entry that POP gives a register is the one that PUSH wrote from it. -/
theorem pushThenPopRestoresRegisters : Obligations.PushThenPopRestoresRegisters := by
  intro s s1 s2 t t1 t2 e e' lo hi ht hp hlt hpush hok ht1 ht2 hp2 hsp hkept
  have hpushed := pushed_of_ok ht hp hlt hpush hok ht1
  have hentry : ∀ k ≤ hi.val - lo.val, t2.ds[t.sp + k]? = some (t.readReg (Fin.ofNat 16 (lo.val + k))) := fun k hk =>
    (hkept (t.sp + k) (by omega) (by omega)).trans (hpushed.entries k (by omega))
  have hsp2 : t2.sp = t.sp + (hi.val - lo.val + 1) := hsp.trans hpushed.sp
  have hbound : t2.sp ≤ t2.ds.length := by
    obtain ⟨hlast, -⟩ := List.getElem?_eq_some_iff.mp (hentry (hi.val - lo.val) le_rfl)
    omega
  obtain ⟨t3, ⟨s3, hpop, ht3, hreply, -⟩, hsp3, hregs, -⟩ :=
    popRange s2 t2 e' lo hi ht2 hp2 hlt (by omega) hbound
  refine ⟨s3, t3, hpop, by rw [hreply], ht3, by omega, fun r hlo hhi => ?_⟩
  have hhi' : r.val ≤ hi.val := hhi
  have hr := hregs r hlo hhi
  rw [hsp2, Nat.add_sub_cancel, hentry _ (by omega), ofNat_add_sub hlo] at hr
  exact (Option.some.inj hr).symm

end Sys2Proof.Machine
end

section
/-! PROOFS. ADD, SUB, MUL and DIV (43_arith.md R113 to R117): the signed operation narrowed by `wrap32` is the operation on
bit vectors, and Exec_regdest carries its result, or its fault, out of the instruction. -/

namespace Sys2Proof.Machine

/-! ## The exact result, narrowed (R113) -/

/-- The word that `wrap32` gives is pinned by its signed value alone, the balanced residue modulo 2^32. -/
theorem wrap32_eq_of_toInt {n : Int} {w : Word} (h : w.toInt = n.bmod (2 ^ 32)) : wrap32 n = w :=
  BitVec.eq_of_toInt_eq ((BitVec.toInt_ofInt n).trans h.symm)

theorem addWords_eq (x v : Word) : addWords x v = .ok (x + v) :=
  congrArg Except.ok (wrap32_eq_of_toInt (BitVec.toInt_add x v))

theorem subWords_eq (x v : Word) : subWords x v = .ok (x - v) :=
  congrArg Except.ok (wrap32_eq_of_toInt BitVec.toInt_sub)

theorem mulWords_eq (x v : Word) : mulWords x v = .ok (x * v) :=
  congrArg Except.ok (wrap32_eq_of_toInt (BitVec.toInt_mul x v))

/-! ## Division and its corners (R117) -/

theorem s32_eq_zero {v : Word} : s32 v = 0 ↔ v = 0 :=
  ⟨fun h => BitVec.eq_of_toInt_eq h, fun h => congrArg BitVec.toInt h⟩

theorem divWords_zero (x : Word) : divWords x 0 = .error .divByZero :=
  if_pos (s32_eq_zero.mpr rfl)

theorem divWords_overflow {x v : Word} (hx : x.toInt = -(2 ^ 31)) (hv : v.toInt = -1) :
    divWords x v = .error .divOverflow := by
  have hne : s32 v ≠ 0 := by
    rw [s32, hv]
    decide
  rw [divWords, if_neg hne, if_pos ⟨hx, hv⟩]

theorem divWords_eq_sdiv {x v : Word} (h0 : v ≠ 0) (hcorner : ¬ (x.toInt = -(2 ^ 31) ∧ v.toInt = -1)) :
    divWords x v = .ok (x.sdiv v) := by
  rw [divWords, if_neg (s32_eq_zero.not.mpr h0)]
  exact (if_neg hcorner).trans (congrArg Except.ok (wrap32_eq_of_toInt (BitVec.toInt_sdiv x v)))

/-- Away from -2^31 by -1 the truncated quotient is a signed word, so narrowing loses nothing of it. -/
theorem toInt_sdiv_of_not_corner {x v : Word} (hcorner : ¬ (x.toInt = -(2 ^ 31) ∧ v.toInt = -1)) :
    (x.sdiv v).toInt = Int.tdiv x.toInt v.toInt := by
  refine BitVec.toInt_sdiv_of_ne_or_ne x v (not_and_or.mp fun ⟨hx, hv⟩ => hcorner ⟨?_, ?_⟩)
  · rw [hx]
    decide
  · rw [hv]
    decide

/-! ## The instructions -/

/-- Exec_regdest with the predicate true, where its operation is UNDEFINED. -/
theorem regDest_fault {f : Word → Word → Except Fault Word} {e : Ext} {d : RegNum} {b : Arg} {s : State} {t : Task}
    {v : Word} {r : Fault} (ht : s.currentTask = some t) (hp : t.flags.holds e = true) (hv : argValue t b = some v)
    (hf : f (t.readReg d) v = .error r) : regDest f e (.reg d) b s = .fault r := by
  rw [regDest_true ht hp hv, hf]

/-- Settles O29: the quotient is `BitVec.sdiv`, exact away from the corner; the corners are the operation's two faults. -/
theorem divTruncatesTowardZero : Obligations.DivTruncatesTowardZero := by
  intro s t e d b v ht hp hv
  refine ⟨fun h0 hcorner => ?quotient, fun h0 => ?byZero, fun hx hminus => ?overflow⟩
  case quotient =>
    exact ⟨t.regs[d].sdiv v, toInt_sdiv_of_not_corner hcorner, settles_regDest ht hp hv (divWords_eq_sdiv h0 hcorner)⟩
  case byZero =>
    subst h0
    exact regDest_fault ht hp hv (divWords_zero _)
  case overflow =>
    exact regDest_fault ht hp hv (divWords_overflow hx hminus)

/-- Settles O28: wrapping addition, subtraction and multiplication of bit vectors. -/
theorem addSubMulWrap : Obligations.AddSubMulWrap := by
  intro s t e d b v ht hp hv
  exact ⟨settles_regDest ht hp hv (addWords_eq _ v), settles_regDest ht hp hv (subWords_eq _ v),
    settles_regDest ht hp hv (mulWords_eq _ v)⟩

end Sys2Proof.Machine
end

section
/-! PROOFS. AND, OR, XOR, SHL and SHR (44_logic_shift.md R118 to R123): the shift count is the source modulo 32, the shifts
are those of bit vectors, and Exec_regdest carries each result out of its instruction. -/

namespace Sys2Proof.Machine

/-! ## The shifts as arithmetic (R118, R122, R123) -/

/-- R118: the low five bits of the source are its value modulo 32. -/
theorem shiftCount_eq (v : Word) : shiftCount v = v.toNat % 32 := by
  rw [shiftCount, BitVec.extractLsb'_toNat, Nat.shiftRight_zero]

/-- R122: the bits that leave the word at the top are the multiples of 2^32. -/
theorem toNat_shiftLeft_eq_mul (x : Word) (n : Nat) : (x <<< n).toNat = x.toNat * 2 ^ n % 2 ^ 32 := by
  rw [BitVec.toNat_shiftLeft, Nat.shiftLeft_eq]

/-- R123: copies of the sign bit come in at the top, which rounds the signed quotient toward minus infinity. -/
theorem toInt_sshiftRight_eq_fdiv (x : Word) (n : Nat) : (x.sshiftRight n).toInt = Int.fdiv x.toInt (2 ^ n) := by
  have hpos : (0 : Int) ≤ 2 ^ n := by positivity
  rw [BitVec.toInt_sshiftRight, Int.shiftRight_eq_div_pow, Int.fdiv_eq_ediv_of_nonneg _ hpos, Nat.cast_pow, Nat.cast_ofNat]

theorem shlWords_eq (x v : Word) : shlWords x v = .ok (x <<< (v.toNat % 32)) := by
  rw [shlWords, shiftCount_eq]

/-- The floor is the signed value of a word, so narrowing loses nothing of it. -/
theorem shrWords_eq (x v : Word) : shrWords x v = .ok (x.sshiftRight (v.toNat % 32)) := by
  rw [shrWords, shiftCount_eq, s32, ← toInt_sshiftRight_eq_fdiv, wrap32, BitVec.ofInt_toInt]

/-! ## The instructions -/

/-- Settles O31: the left shift read unsigned and the arithmetic right shift read signed, by the source modulo 32. -/
theorem shiftResults : Obligations.ShiftResults := by
  intro s t e d b v ht hp hv
  refine ⟨⟨t.regs[d] <<< (v.toNat % 32), ?product, ?shl⟩, ⟨t.regs[d].sshiftRight (v.toNat % 32), ?floor, ?shr⟩⟩
  case product => exact toNat_shiftLeft_eq_mul _ _
  case shl => exact settles_regDest ht hp hv (shlWords_eq _ v)
  case floor => exact toInt_sshiftRight_eq_fdiv _ _
  case shr => exact settles_regDest ht hp hv (shrWords_eq _ v)

/-- Settles O30: the bitwise operations of bit vectors, read bit by bit. -/
theorem bitwiseResults : Obligations.BitwiseResults := by
  intro s t e d b v ht hp hv
  refine ⟨⟨t.regs[d] &&& v, fun _ _ => BitVec.getLsbD_and, ?and⟩, ⟨t.regs[d] ||| v, fun _ _ => BitVec.getLsbD_or, ?or⟩,
    ⟨t.regs[d] ^^^ v, fun _ _ => BitVec.getLsbD_xor, ?xor⟩⟩
  case and => exact settles_regDest (f := andWords) ht hp hv rfl
  case or => exact settles_regDest (f := orWords) ht hp hv rfl
  case xor => exact settles_regDest (f := xorWords) ht hp hv rfl

end Sys2Proof.Machine
end

section
/-! PROOFS. CMP and CLF (45_compare_flags.md R124, R125): which flags `Flags.compare` and `Flags.clearSelected` leave true,
and that each instruction writes these flags and nothing else. -/

namespace Sys2Proof.Machine

/-! ## The comparison flags (R124) -/

theorem s32_inj {v w : Word} : s32 v = s32 w ↔ v = w :=
  BitVec.toInt_inj

/-- A sticky flag is true afterwards where it was true or its relation holds. -/
theorem or_decide_eq_true_iff {b : Bool} {p : Prop} [Decidable p] : (b || decide p) = true ↔ b = true ∨ p := by
  rw [Bool.or_eq_true, decide_eq_true_iff]

section
variable (f : Flags) (v w : Word)

theorem Flags.eq_compare_iff : (f.compare v w).eq = true ↔ f.eq = true ∨ v = w :=
  or_decide_eq_true_iff.trans (or_congr_right s32_inj)

theorem Flags.ne_compare_iff : (f.compare v w).ne = true ↔ f.ne = true ∨ v ≠ w :=
  or_decide_eq_true_iff.trans (or_congr_right s32_inj.not)

theorem Flags.lt_compare_iff : (f.compare v w).lt = true ↔ f.lt = true ∨ v.toInt < w.toInt :=
  or_decide_eq_true_iff

theorem Flags.le_compare_iff : (f.compare v w).le = true ↔ f.le = true ∨ v.toInt ≤ w.toInt :=
  or_decide_eq_true_iff

theorem Flags.gt_compare_iff : (f.compare v w).gt = true ↔ f.gt = true ∨ w.toInt < v.toInt :=
  or_decide_eq_true_iff

theorem Flags.ge_compare_iff : (f.compare v w).ge = true ↔ f.ge = true ∨ w.toInt ≤ v.toInt :=
  or_decide_eq_true_iff

@[simp] theorem Flags.nz_compare : (f.compare v w).nz = f.nz := rfl

@[simp] theorem Flags.z_compare : (f.compare v w).z = f.z := rfl

end

/-! ## The flags that CLF clears (R125) -/

/-- Each flag is a field of its own, so clearing one is not seen in another. -/
theorem Flags.get_clear (f : Flags) (g g' : Flag) : (f.clear g).get g' = if g' = g then false else f.get g' := by
  cases g <;> cases g' <;> rfl

theorem Flags.get_clear_self (f : Flags) (g : Flag) : (f.clear g).get g = false :=
  (f.get_clear g g).trans (if_pos rfl)

theorem Flags.get_clear_of_ne (f : Flags) {g g' : Flag} (h : g' ≠ g) : (f.clear g).get g' = f.get g' :=
  (f.get_clear g g').trans (if_neg h)

theorem Flags.clearSelected_of_not_flag (f : Flags) {e : Ext} (h : ∀ g, e ≠ .flag g) :
    f.clearSelected e = Flags.allClear := by
  cases e with
  | none | reserved => rfl
  | flag g => exact absurd rfl (h g)

/-! ## The instructions -/

/-- CMP with the predicate true and both values present: the flags are all it writes. -/
theorem settles_cmp {s : State} {t : Task} {e : Ext} {a b : Arg} {v w : Word} (ht : s.currentTask = some t)
    (hp : t.flags.holds e = true) (hv : argValue t a = some v) (hw : argValue t b = some w) :
    Settles s { t with flags := t.flags.compare v w } .ok (exec (.cmp e a b) s) := by
  simp only [exec, execCmp, onCurrent_some ht, hv, hw, if_pos hp]
  exact settles_finish ht rfl

/-- CLF on any current task: its extension is a selector and no predicate, so nothing suppresses it. -/
theorem settles_clf {s : State} {t : Task} (ht : s.currentTask = some t) (e : Ext) (a b : Arg) :
    Settles s { t with flags := t.flags.clearSelected e } .ok (exec (.clf e a b) s) := by
  rw [exec, execClf, onCurrent_some ht]
  exact settles_finish ht rfl

/-- Settles O40: the flags written are `Flags.compare` of the two values, read flag by flag. -/
theorem cmpSetsTheRelationsThatHold : Obligations.CmpSetsTheRelationsThatHold := by
  intro s t e a b v w ht hp hv hw
  exact ⟨t.flags.compare v w, settles_cmp ht hp hv hw,
    t.flags.eq_compare_iff v w, t.flags.ne_compare_iff v w, t.flags.lt_compare_iff v w, t.flags.le_compare_iff v w,
    t.flags.gt_compare_iff v w, t.flags.ge_compare_iff v w, t.flags.nz_compare v w, t.flags.z_compare v w⟩

/-- Settles O41: an extension that names no flag selects all eight, one that names a flag selects it alone. -/
theorem clfClearsTheSelectedFlags : Obligations.ClfClearsTheSelectedFlags := by
  intro s t a b ht
  refine ⟨fun e he => ?all, fun g => ⟨t.flags.clear g, ?one, t.flags.get_clear_self g, ?others⟩⟩
  case all =>
    have hclear := settles_clf ht e a b
    rwa [Flags.clearSelected_of_not_flag _ he] at hclear
  case one => exact settles_clf ht (.flag g) a b
  case others => exact fun g' hne => t.flags.get_clear_of_ne hne

end Sys2Proof.Machine
end

section
/-! PROOFS. JMP, INV and RET (46_control.md R126 to R129): the three ways a branch ends, said of the record that is current
when it branches, and what each instruction has written by then. -/

namespace Sys2Proof.Machine

/-! ## The three ways a branch ends (R126) -/

section
variable {s : State} {t u : Task} {v : Word}

theorem branchTo_negative (s : State) (u : Task) (hneg : v.toInt < 0) : branchTo s u v = .fault .negativeTarget :=
  if_pos hneg

variable (ht : s.currentTask = some t) (hh : u.handle = t.handle)
include ht hh

/-- A target at or past CODE_SIZE: the record `u`, written before the branch, stays. -/
theorem settles_branchTo_past (hpast : (s.codeSize : Int) ≤ v.toInt) : Settles s u .jmpOverflow (branchTo s u v) := by
  have hnonneg : 0 ≤ v.toInt := (Int.natCast_nonneg _).trans hpast
  rw [branchTo, s32, if_neg hnonneg.not_gt, if_pos hpast]
  exact settles_raise_putTask ht hh .jmpOverflow

theorem settles_branchTo_within (hnonneg : 0 ≤ v.toInt) (hwithin : v.toInt < s.codeSize) :
    Settles s { u with pc := v } .ok (branchTo s u v) := by
  rw [branchTo, s32, if_neg hnonneg.not_gt, if_neg hwithin.not_ge]
  exact settles_finish ht hh

end

/-! ## What each instruction runs -/

section
variable {s : State} {t : Task} (ht : s.currentTask = some t)
include ht

theorem exec_ret (e : Ext) (a b : Arg) : exec (.ret e a b) s =
    if t.rpc = 0 then raise s .callStkUnderflow else finish s { t.csPop.2 with pc := t.csPop.1 } :=
  onCurrent_some ht _

variable {e : Ext} {a : Arg} {v : Word} (hp : t.flags.holds e = true) (hv : argValue t a = some v) (b : Arg)
include hp hv

theorem exec_jmp_of_holds : exec (.jmp e a b) s = branchTo s t v := by
  rw [exec, execJmp, withValue_some ht hv, if_pos hp]

theorem exec_inv_of_full (hfull : t.rpc = t.cs.length) : exec (.inv e a b) s = raise s .callStkOverflow := by
  rw [exec, execInv, withValue_some ht hv, if_pos hp, if_pos hfull]

theorem exec_inv_of_room (hroom : t.rpc < t.cs.length) : exec (.inv e a b) s = branchTo s (t.csPush t.pc) v := by
  rw [exec, execInv, withValue_some ht hv, if_pos hp, if_neg hroom.ne]

end

/-! ## The obligations -/

/-- Settles O42: a branch of the current task's own record. -/
theorem jmpSetsPc : Obligations.JmpSetsPc := by
  intro s t e a b v ht hp hv hnonneg hwithin
  rw [exec_jmp_of_holds ht hp hv]
  exact settles_branchTo_within ht rfl hnonneg hwithin

/-- Settles O43: a branch of the record with the return address pushed. -/
theorem invPushesAndBranches : Obligations.InvPushesAndBranches := by
  intro s t e a b v ht hp hv hroom hnonneg hwithin
  refine ⟨(t.csPush t.pc).cs, List.getElem?_set_self hroom, fun k hk => List.getElem?_set_ne hk.symm, ?_⟩
  rw [exec_inv_of_room ht hp hv b hroom]
  exact settles_branchTo_within ht (t.csPush_handle t.pc) hnonneg hwithin

/-- Settles O44: what stays is the record that branched, JMP's as it was and INV's with the return address pushed; a full
call stack is seen before the target. -/
theorem branchErrors : Obligations.BranchErrors := by
  intro s t e a b v ht hp hv
  rw [exec_jmp_of_holds ht hp hv]
  refine ⟨settles_branchTo_past ht rfl, branchTo_negative s t, fun hfull => ?full, fun hroom hpast => ?past,
    fun hroom hneg => ?negative⟩
  case full =>
    rw [exec_inv_of_full ht hp hv b hfull]
    exact settles_raise ht .callStkOverflow
  case past =>
    rw [exec_inv_of_room ht hp hv b hroom]
    exact settles_branchTo_past ht (t.csPush_handle t.pc) hpast
  case negative =>
    rw [exec_inv_of_room ht hp hv b hroom]
    exact branchTo_negative s (t.csPush t.pc) hneg

/-- Settles O45: nothing gates RET, and only rpc decides which of its two ends it takes. -/
theorem retPopsPc : Obligations.RetPopsPc := by
  intro s t e a b ht
  rw [exec_ret ht]
  refine ⟨fun hempty => ?empty, fun v hentry htop => ?entry⟩
  case empty =>
    rw [if_pos hempty]
    exact settles_raise ht .callStkUnderflow
  case entry =>
    rw [if_neg hentry.ne', Task.csPop_value htop]
    exact settles_finish ht t.csPop_task_handle

end Sys2Proof.Machine
end

section
/-! PROOFS. The operations of the host on a VM without a FAULT (60_exceptions.md R152 to R155, R158, R159;
70_reset_and_hazards.md R161 to R164): which operation is served, what task init makes, and how the ring grows, shrinks
and is gone round. -/

namespace Sys2Proof.Machine

/-! ## Which operation is served (R158) -/

/-- Settles O10: the two cases of the list of waiting operations. -/
theorem stepServesTheFirstWaitingOperation : Obligations.StepServesTheFirstWaitingOperation := by
  intro s
  refine ⟨fun hnone => ?_, fun c rest hcall => ?_⟩
  · rw [step, hnone]
  · rw [step, hcall]

section
variable {s : State} (hf : s.fault = none)
include hf

theorem serve_cycle : serve .cycle s = cycle s := by rw [serve, hf]

theorem serve_load (words : List Word) (m : ImageMeta) (seeds : Option RegFile) (alloc : Option Handle) :
    serve (.load words m seeds alloc) s = load words m seeds alloc s := by rw [serve, hf]

theorem serve_switchTask : serve .switchTask s = switchTask s := by rw [serve, hf]

theorem serve_block (b : Bool) : serve (.block b) s = blockSwitch b s := by rw [serve, hf]

theorem serve_create (pc : Word) (seeds : Option RegFile) (alloc : Option Handle) :
    serve (.create pc seeds alloc) s = create pc seeds alloc s := by rw [serve, hf]

theorem serve_remove (h : Handle) : serve (.remove h) s = remove h s := by rw [serve, hf]

theorem serve_unload : serve .unload s = unload s := by rw [serve, hf]

end

/-- A cycle while RUNNING is false only answers (40_cycle.md R86). -/
theorem cycle_of_not_running {s : State} (hr : s.running = false) : cycle s = .next (s.answer .notRunning) :=
  if_neg (by simp [hr])

/-! ## Reset (R161) -/

/-- Settles O15: init names every field, and nothing waits, so that the step is a cycle with RUNNING false. -/
theorem initLeavesAnIdleVm : Obligations.InitLeavesAnIdleVm := by
  intro c h p
  refine ⟨_, rfl, rfl, rfl, rfl, rfl, rfl, rfl, rfl, rfl, ?_⟩
  rw [step_eq_cycle ⟨rfl, rfl⟩, cycle_of_not_running rfl]
  rfl

/-- Settles O58: after reset there is neither a task nor an image to speak of. -/
theorem resetMeetsTheInvariant : Obligations.ResetMeetsTheInvariant :=
  { handles := List.nodup_nil, bounds := nofun, idle := fun _ => ⟨rfl, rfl, rfl⟩, loaded := nofun }

/-! ## Tasks that are made: load and create (R152, R162, R163) -/

/-- Task init makes a fresh task, whatever its stacks hold (R162). -/
theorem initTask_fresh (h : Handle) (pc : Word) (seeds : Option RegFile) (m : ImageMeta) (draw : Nat) :
    FreshTask (initTask h pc seeds m draw) pc seeds m where
  seeded regs hseeds := by rw [hseeds]; rfl
  unseeded hseeds r := by rw [hseeds]; exact Vector.getElem_replicate _
  flags := rfl
  pc := rfl
  rpc := rfl
  sp := rfl
  dataStack := List.length_map _ |>.trans List.length_range
  callStack := List.length_map _ |>.trans List.length_range

/-- load with an image already loaded is outside its precondition (R159). -/
theorem load_of_image {s : State} (hcode : s.code.isSome) (words : List Word) (m : ImageMeta) (seeds : Option RegFile)
    (alloc : Option Handle) : load words m seeds alloc s = .fault .hostProtocol := if_pos hcode

/-- load, its preconditions met, does nothing without the memory and otherwise makes task 0 (R158, R163). -/
theorem load_of_no_image {s : State} {words : List Word} (hcode : s.code = none)
    (hsize : words.length ≤ Config.maxCodeSize) (m : ImageMeta) (seeds : Option RegFile) :
    load words m seeds none s = raise s .badAlloc ∧
    ∀ h, load words m seeds (some h) s =
      .next ({ s with
        code := some (CodeImage.ofWords words m)
        ring := [initTask h 0 seeds m s.draws]
        cur := some h
        running := true
        draws := s.draws + 1 }.answer .ok) := by
  have hidle : ¬ s.code.isSome := by simp [hcode]
  simp only [load, if_neg hidle, if_neg hsize.not_gt, implies_true, and_self]

/-- create with an image does nothing without the memory and otherwise appends a task under an unused handle (R152,
R158). -/
theorem create_of_image {s : State} {img : CodeImage} (hcode : s.code = some img) (pc : Word)
    (seeds : Option RegFile) :
    create pc seeds none s = raise s .badAlloc ∧
    ∀ h, s.task h = none → create pc seeds (some h) s =
      .next { s with
        ring := s.ring ++ [initTask h pc seeds img.metadata s.draws]
        reply := { code := .ok, handle := some h }
        draws := s.draws + 1 } := by
  refine ⟨?refused, fun h hfree => ?given⟩
  case refused => simp only [create, hcode]
  case given =>
    simp only [create, hcode, hfree]
    rfl

/-- Settles O16: the image reads as its words, and task 0 is the only task to be found. -/
theorem loadStartsTaskZero : Obligations.LoadStartsTaskZero := by
  intro s words m seeds h hf hcode hsize
  obtain ⟨-, hload⟩ := load_of_no_image hcode hsize m seeds
  have hfound : [initTask h 0 seeds m s.draws].find? (fun t => t.handle == h) =
      some (initTask h 0 seeds m s.draws) := List.find?_cons_of_pos (beq_self_eq_true h)
  exact ⟨_, _, _, (serve_load hf ..).trans (hload h), rfl, CodeImage.ofWords_size words m,
    CodeImage.ofWords_metadata words m, CodeImage.codeRead_ofWords words m, rfl, rfl, initTask_fresh .., hfound, rfl,
    rfl, rfl, rfl, rfl, rfl, hf, rfl⟩

/-- Settles O17: the new task is task init's. -/
theorem createAppendsAFreshTask : Obligations.CreateAppendsAFreshTask := by
  intro s img pc seeds h hf hcode hfree
  obtain ⟨-, hcreate⟩ := create_of_image hcode pc seeds
  exact ⟨_, _, (serve_create hf ..).trans (hcreate h hfree), rfl, initTask_fresh .., rfl, rfl, rfl, rfl, rfl, rfl, rfl,
    rfl, rfl, rfl, hf⟩

/-- Settles O22: the allocator refuses the memory, or the operation is outside its precondition. -/
theorem hostOperationsWithoutEffect : Obligations.HostOperationsWithoutEffect := by
  intro s hf
  refine ⟨fun words m seeds hcode hsize => ?loadRefused, fun img pc seeds hcode => ?createRefused,
    fun words m seeds alloc hcode => ?loadLoaded, fun hcode => ?unloadIdle, fun pc seeds alloc hcode => ?createIdle⟩
  case loadRefused =>
    obtain ⟨hload, -⟩ := load_of_no_image hcode hsize m seeds
    exact (serve_load hf ..).trans hload
  case createRefused =>
    obtain ⟨hcreate, -⟩ := create_of_image hcode pc seeds
    exact (serve_create hf ..).trans hcreate
  case loadLoaded => exact (serve_load hf ..).trans (load_of_image hcode ..)
  case unloadIdle => exact (serve_unload hf).trans (if_pos (by rw [hcode]; rfl))
  case createIdle => rw [serve_create hf, create, hcode]

/-- Settles O21: the precondition of unload is an image. -/
theorem unloadReleasesEverything : Obligations.UnloadReleasesEverything := by
  intro s hf hcode
  exact (serve_unload hf).trans (if_neg (by simpa [Option.isSome_iff_ne_none] using hcode))

/-! ## Tasks that are taken out: remove (R153) -/

/-- In a ring whose handles name one task each, no other task bears a task's handle. -/
theorem handle_ne_of_nodup {before after : List Task} {t : Task}
    (hn : ((before ++ t :: after).map Task.handle).Nodup) : ∀ u ∈ before ++ after, u.handle ≠ t.handle := by
  rw [List.map_append, List.map_cons, List.nodup_middle, ← List.map_append, List.nodup_cons] at hn
  obtain ⟨hnew, -⟩ := hn
  exact fun u hu hut => hnew (hut ▸ List.mem_map_of_mem hu)

/-- Taking out the tasks of a handle takes out the one task that bears it, the others keeping their order. -/
theorem filter_handle_of_nodup {before after : List Task} {t : Task}
    (hn : ((before ++ t :: after).map Task.handle).Nodup) :
    (before ++ t :: after).filter (fun u => u.handle != t.handle) = before ++ after := by
  have hkept := List.filter_eq_self.mpr fun u hu => bne_iff_ne.mpr (handle_ne_of_nodup hn u hu)
  rw [List.filter_append] at hkept ⊢
  rw [List.filter_cons_of_neg (by simp), hkept]

/-- Settles O18: the task is not there, is not current, or is current. -/
theorem removeUnlinksATask : Obligations.RemoveUnlinksATask := by
  intro s h hf hn
  rw [serve_remove hf, remove]
  refine ⟨fun hnone => ?missing, fun t before after hring ht hcur => ?other, fun t ht hcur => ?current⟩
  case missing =>
    rw [hnone]
    rfl
  case other =>
    subst ht
    have hfound : s.task t.handle = some t := State.task_of_mem hn (by simp [hring])
    rw [hring] at hn
    rw [hfound, if_neg (by simp), if_neg hcur, hring, filter_handle_of_nodup hn]
    rfl
  case current => rw [ht, if_neg (by simp), if_pos hcur]

/-! ## Going round the ring: switch (R154) -/

/-- The successor of a task is the first one after it, if there is one. -/
theorem successorIn_append {before rest : List Task} {t : Task} (hb : ∀ u ∈ before, u.handle ≠ t.handle) :
    successorIn t.handle (before ++ t :: rest) = (rest.head?).map Task.handle := by
  induction before with
  | nil => exact if_pos rfl
  | cons u before ih =>
    obtain ⟨hu, hbefore⟩ := List.forall_mem_cons.mp hb
    rw [List.cons_append, successorIn, if_neg hu, ih hbefore]

/-- A switch from a task that is not blocked goes to the first task after it, or else to head. -/
theorem switchTask_of_ring {s : State} {t : Task} {before rest : List Task} (htsb : s.tsb = false)
    (hn : (s.ring.map Task.handle).Nodup) (hring : s.ring = before ++ t :: rest) (hcur : s.cur = some t.handle) :
    switchTask s = .next ({ s with
      cur := ((rest.head?).map Task.handle).or ((s.ring.head?).map Task.handle) }.answer .ok) := by
  have hnext : successorIn t.handle s.ring = (rest.head?).map Task.handle := by
    rw [hring] at hn ⊢
    exact successorIn_append fun u hu => handle_ne_of_nodup hn u (List.mem_append_left _ hu)
  simp only [switchTask, htsb, hcur, hnext]
  cases rest.head? <;> rfl

/-- Settles O19: blocked, from null, from a task with another one after it, and from the last one. -/
theorem switchFollowsTheRing : Obligations.SwitchFollowsTheRing := by
  intro s hf hn
  rw [serve_switchTask hf]
  refine ⟨fun htsb => ?blocked, fun htsb hcur => ?fromNull, fun htsb t u before after hring hcur => ?toNext,
    fun htsb t before hring hcur => ?toHead⟩
  case blocked => exact if_pos htsb
  case fromNull =>
    simp only [switchTask, htsb, hcur]
    rfl
  case toNext => exact switchTask_of_ring htsb hn hring hcur
  case toHead => exact switchTask_of_ring htsb hn hring hcur

end Sys2Proof.Machine
end

section
/-! PROOFS. The halted state (60_exceptions.md R150, 70_reset_and_hazards.md R165): everything an operation of the host can
do there, said once, and that none but unload leaves it. -/

namespace Sys2Proof.Machine

/-- The next states that an operation other than unload can answer with while the VM is halted. -/
inductive HaltedEffect (s : State) : HostCall → State → Prop
  | answer (c code) : HaltedEffect s c (s.answer code)
  | switchTask (next) : HaltedEffect s .switchTask ({ s with cur := next }.answer .ok)
  | block (b) : HaltedEffect s (.block b) ({ s with tsb := b }.answer .ok)
  | create (pc seeds alloc t reply draws) :
      HaltedEffect s (.create pc seeds alloc) { s with ring := s.ring ++ [t], reply := reply, draws := draws }
  | remove (h) :
      HaltedEffect s (.remove h) ({ s with ring := s.ring.filter (fun t => t.handle != h) }.answer .ok)

theorem create_effect {pc : Word} {seeds : Option RegFile} {alloc : Option Handle} {s s' : State}
    (h : create pc seeds alloc s = .next s') : HaltedEffect s (.create pc seeds alloc) s' := by
  unfold create at h
  split at h
  · cases h
  split at h
  · cases h
    exact .answer _ .badAlloc
  split at h
  · cases h
  cases h
  exact .create pc seeds _ _ _ _

theorem remove_effect {k : Handle} {s s' : State} (h : remove k s = .next s') : HaltedEffect s (.remove k) s' := by
  unfold remove at h
  split at h
  · cases h
    exact .answer _ .taskNotFound
  split at h
  · cases h
  cases h
  exact .remove k

/-- A load is outside its precondition, and a cycle is refused: in the halted state there is an image, and RUNNING is
false. -/
theorem serve_effect_of_halted {s s' : State} {c : HostCall} (hs : s.isHalted) (hf : s.fault = none) (hc : c ≠ .unload)
    (h : serve c s = .next s') : HaltedEffect s c s' := by
  obtain ⟨hcode, hrunning⟩ := hs
  cases c with
  | load words m seeds alloc =>
    rw [serve_load hf, load_of_image hcode] at h
    cases h
  | cycle =>
    rw [serve_cycle hf, cycle_of_not_running hrunning] at h
    cases h
    exact .answer _ .notRunning
  | switchTask =>
    rw [serve_switchTask hf] at h
    obtain rfl | ⟨next, rfl, -⟩ := switchTask_next h
    · exact .answer _ .taskSwitchBlocked
    · exact .switchTask next
  | block b =>
    rw [serve_block hf] at h
    cases h
    exact .block b
  | create pc seeds alloc => exact create_effect ((serve_create hf ..).symm.trans h)
  | remove k => exact remove_effect ((serve_remove hf k).symm.trans h)
  | unload => exact absurd rfl hc

/-- Taking out the tasks of another handle leaves the search for a handle as it was. -/
theorem find?_filter_handle {k k' : Handle} (hne : k ≠ k') (ring : List Task) :
    (ring.filter (fun t => t.handle != k')).find? (fun t => t.handle == k) = ring.find? (fun t => t.handle == k) := by
  rw [List.find?_filter]
  congr 1
  funext t
  by_cases ht : t.handle = k
  · simp [ht, hne]
  · simp [ht]

/-- A task that is found is found still, but for the one that a remove takes out. -/
theorem HaltedEffect.keeps_task {s s' : State} {c : HostCall} (h : HaltedEffect s c s') {k : Handle} {t : Task}
    (ht : s.task k = some t) (hc : c ≠ .remove k) : s'.task k = some t := by
  cases h with
  | answer | switchTask | block => exact ht
  | create =>
    have hfirst (o : Option Task) : (s.task k).or o = some t := by
      rw [ht]
      rfl
    exact List.find?_append.trans (hfirst _)
  | remove k' =>
    have hne : k ≠ k' := fun e => hc (congrArg HostCall.remove e.symm)
    exact (find?_filter_handle hne s.ring).trans ht

/-- Settles O24: of the fields named, each effect in the halted state changes at most the one it is for. -/
theorem haltedUntilUnload : Obligations.HaltedUntilUnload := by
  intro s hs hf
  obtain ⟨-, hrunning⟩ := id hs
  refine ⟨(serve_cycle hf).trans (cycle_of_not_running hrunning), fun c s' hc h => ?_⟩
  have heffect := serve_effect_of_halted hs hf hc h
  have htasks := fun k t => heffect.keeps_task (k := k) (t := t)
  cases heffect with
  | answer => exact ⟨hs, rfl, rfl, rfl, rfl, hf, htasks, fun _ _ => rfl, fun _ => rfl, fun _ => rfl⟩
  | switchTask =>
    exact ⟨hs, rfl, rfl, rfl, rfl, hf, htasks, fun _ _ => rfl, fun _ => rfl, fun hne => absurd rfl hne⟩
  | block b =>
    exact ⟨hs, rfl, rfl, rfl, rfl, hf, htasks, fun _ _ => rfl, fun hne => absurd rfl (hne b), fun _ => rfl⟩
  | create pc seeds alloc =>
    exact ⟨hs, rfl, rfl, rfl, rfl, hf, htasks, fun hne _ => absurd rfl (hne pc seeds alloc), fun _ => rfl,
      fun _ => rfl⟩
  | remove k =>
    exact ⟨hs, rfl, rfl, rfl, rfl, hf, htasks, fun _ hne => absurd rfl (hne k), fun _ => rfl, fun _ => rfl⟩

end Sys2Proof.Machine
end

section
/-! PROOFS. No instruction reads or writes TSB (60_exceptions.md R155): setting TSB before an instruction is setting it in
the outcome, operation by operation. -/

namespace Sys2Proof.Machine

/-- TSB set, as block does it. -/
def State.withTsb (s : State) (b : Bool) : State := { s with tsb := b }

/-- The outcome with TSB set in its next state, if it has one. -/
def outcomeWithTsb (b : Bool) : Host.Outcome State Fault Refusal → Host.Outcome State Fault Refusal
  | .next s => .next (s.withTsb b)
  | .fault r => .fault r
  | .refused r => .refused r

section
variable (s : State) (b : Bool)

/-! ## What an instruction reads of the VM -/

theorem State.withTsb_currentTask : (s.withTsb b).currentTask = s.currentTask := rfl

theorem State.withTsb_codeSize : (s.withTsb b).codeSize = s.codeSize := rfl

theorem State.withTsb_handler : (s.withTsb b).handler = s.handler := rfl

/-! ## The ways an operation ends -/

theorem raise_withTsb (c : ResultCode) : raise (s.withTsb b) c = outcomeWithTsb b (raise s c) := rfl

theorem finish_withTsb (t : Task) : finish (s.withTsb b) t = outcomeWithTsb b (finish s t) := rfl

theorem illShaped_withTsb (p : Bool) (o : Host.Outcome State Fault Refusal) :
    illShaped p (outcomeWithTsb b o) = outcomeWithTsb b (illShaped p o) := by
  cases p <;> rfl

theorem onCurrent_withTsb {body body' : Task → Host.Outcome State Fault Refusal}
    (hbody : ∀ t, body' t = outcomeWithTsb b (body t)) :
    onCurrent (s.withTsb b) body' = outcomeWithTsb b (onCurrent s body) := by
  unfold onCurrent
  rw [State.withTsb_currentTask]
  cases s.currentTask with
  | none => rfl
  | some t => exact hbody t

theorem branchTo_withTsb (t : Task) (v : Word) :
    branchTo (s.withTsb b) t v = outcomeWithTsb b (branchTo s t v) := by
  unfold branchTo
  rw [State.withTsb_codeSize]
  split
  · rfl
  · split <;> rfl

/-! ## The shared shapes of instructions -/

theorem regDest_withTsb (f : Word → Word → Except Fault Word) (e : Ext) (a₁ a₂ : Arg) :
    regDest f e a₁ a₂ (s.withTsb b) = outcomeWithTsb b (regDest f e a₁ a₂ s) := by
  refine onCurrent_withTsb s b fun t => ?_
  cases argRegIndex a₁ with
  | none => exact illShaped_withTsb b _ (raise s .argNotReg)
  | some d =>
    cases argValue t a₂ with
    | none => exact illShaped_withTsb b _ (.fault .noneOperand)
    | some v =>
      dsimp only
      split
      · cases f (t.readReg d) v <;> rfl
      · exact finish_withTsb s b _

theorem withValue_withTsb (e : Ext) (a : Arg) {effect effect' : Task → Word → Host.Outcome State Fault Refusal}
    (heffect : ∀ t v, effect' t v = outcomeWithTsb b (effect t v)) :
    withValue e a (s.withTsb b) effect' = outcomeWithTsb b (withValue e a s effect) := by
  refine onCurrent_withTsb s b fun t => ?_
  cases argValue t a with
  | none => exact illShaped_withTsb b _ (.fault .noneOperand)
  | some v =>
    dsimp only
    split
    · exact heffect t v
    · exact finish_withTsb s b t

/-! ## The instructions -/

theorem execEnd_withTsb (e : Ext) (a₁ a₂ : Arg) :
    execEnd e a₁ a₂ (s.withTsb b) = outcomeWithTsb b (execEnd e a₁ a₂ s) :=
  onCurrent_withTsb s b fun _ => rfl

theorem execPush_withTsb (e : Ext) (a₁ a₂ : Arg) :
    execPush e a₁ a₂ (s.withTsb b) = outcomeWithTsb b (execPush e a₁ a₂ s) := by
  refine onCurrent_withTsb s b fun t => ?_
  cases pushShape t a₁ a₂ with
  | badOrder => exact illShaped_withTsb b _ (raise s .pushArgBadOrder)
  | badForm => exact illShaped_withTsb b _ (.fault .badStackForm)
  | values vs =>
    dsimp only
    split
    · split
      · exact raise_withTsb s b .stkOverflow
      · exact finish_withTsb s b _
    · exact finish_withTsb s b t

theorem execPop_withTsb (e : Ext) (a₁ a₂ : Arg) :
    execPop e a₁ a₂ (s.withTsb b) = outcomeWithTsb b (execPop e a₁ a₂ s) := by
  refine onCurrent_withTsb s b fun t => ?_
  cases popShape a₁ a₂ with
  | badOrder => exact illShaped_withTsb b _ (.fault .popBadOrder)
  | badForm => exact illShaped_withTsb b _ (.fault .badStackForm)
  | registers rs =>
    dsimp only
    split
    · split
      · exact raise_withTsb s b .stkUnderflow
      · exact finish_withTsb s b _
    · exact finish_withTsb s b t

theorem execCmp_withTsb (e : Ext) (a₁ a₂ : Arg) :
    execCmp e a₁ a₂ (s.withTsb b) = outcomeWithTsb b (execCmp e a₁ a₂ s) := by
  refine onCurrent_withTsb s b fun t => ?_
  cases argValue t a₁ with
  | none => exact illShaped_withTsb b _ (.fault .noneOperand)
  | some v =>
    cases argValue t a₂ with
    | none => exact illShaped_withTsb b _ (.fault .noneOperand)
    | some w => exact finish_withTsb s b _

theorem execClf_withTsb (e : Ext) (a₁ a₂ : Arg) :
    execClf e a₁ a₂ (s.withTsb b) = outcomeWithTsb b (execClf e a₁ a₂ s) :=
  onCurrent_withTsb s b fun _ => finish_withTsb s b _

theorem execJmp_withTsb (e : Ext) (a₁ a₂ : Arg) :
    execJmp e a₁ a₂ (s.withTsb b) = outcomeWithTsb b (execJmp e a₁ a₂ s) :=
  withValue_withTsb s b e a₁ fun t v => branchTo_withTsb s b t v

theorem execInv_withTsb (e : Ext) (a₁ a₂ : Arg) :
    execInv e a₁ a₂ (s.withTsb b) = outcomeWithTsb b (execInv e a₁ a₂ s) := by
  refine withValue_withTsb s b e a₁ fun t v => ?_
  split
  · exact raise_withTsb s b .callStkOverflow
  · exact branchTo_withTsb s b (t.csPush t.pc) v

theorem execRet_withTsb (e : Ext) (a₁ a₂ : Arg) :
    execRet e a₁ a₂ (s.withTsb b) = outcomeWithTsb b (execRet e a₁ a₂ s) := by
  refine onCurrent_withTsb s b fun t => ?_
  split
  · exact raise_withTsb s b .callStkUnderflow
  · exact finish_withTsb s b _

theorem execSys_withTsb (e : Ext) (a₁ a₂ : Arg) :
    execSys e a₁ a₂ (s.withTsb b) = outcomeWithTsb b (execSys e a₁ a₂ s) := by
  rw [execSys_eq, execSys_eq]
  refine withValue_withTsb s b e a₁ fun t v => ?_
  rw [State.withTsb_handler]
  cases s.handler with
  | none => rfl
  | some k => exact finish_withTsb { s with hostCtx := _, draws := _ } b _

/-- Setting TSB before an instruction is setting it in the outcome. -/
theorem exec_withTsb (i : Instr) : exec i (s.withTsb b) = outcomeWithTsb b (exec i s) := by
  cases hreg : isRegDest i with
  | true =>
    obtain ⟨f, hexec⟩ := exists_exec_eq_regDest hreg
    rw [hexec, hexec]
    exact regDest_withTsb s b f i.ext i.arg1 i.arg2
  | false =>
    cases i with
    | nop => exact raise_withTsb s b .ok
    | endVm e a₁ a₂ => exact execEnd_withTsb s b e a₁ a₂
    | push e a₁ a₂ => exact execPush_withTsb s b e a₁ a₂
    | pop e a₁ a₂ => exact execPop_withTsb s b e a₁ a₂
    | cmp e a₁ a₂ => exact execCmp_withTsb s b e a₁ a₂
    | clf e a₁ a₂ => exact execClf_withTsb s b e a₁ a₂
    | jmp e a₁ a₂ => exact execJmp_withTsb s b e a₁ a₂
    | inv e a₁ a₂ => exact execInv_withTsb s b e a₁ a₂
    | ret e a₁ a₂ => exact execRet_withTsb s b e a₁ a₂
    | sys e a₁ a₂ => exact execSys_withTsb s b e a₁ a₂
    | mov | add | sub | mul | div | and | or | xor | shl | shr => cases hreg

end

/-- Settles O20: TSB set to what it is leaves the state as it is, so that the TSB of a next state is the one before. -/
theorem onlyTheHostSeesTsb : Obligations.OnlyTheHostSeesTsb := by
  refine ⟨fun s b hf => serve_block hf b, fun i s b => ⟨fun s' h => ⟨?next, ?kept⟩, fun r h => ?fault⟩⟩
  case next => exact (exec_withTsb s b i).trans (congrArg _ h)
  case fault => exact (exec_withTsb s b i).trans (congrArg _ h)
  case kept =>
    have hsame : Host.Outcome.next s' = .next (s'.withTsb s.tsb) :=
      calc Host.Outcome.next s'
        _ = exec i (s.withTsb s.tsb) := h.symm
        _ = outcomeWithTsb s.tsb (exec i s) := exec_withTsb s s.tsb i
        _ = .next (s'.withTsb s.tsb) := congrArg _ h
    exact (congrArg State.tsb (Host.Outcome.next.inj hsame) :)

end Sys2Proof.Machine
end

section
/-! PROOFS. SYS (47_syscall.md R131, R132): the frame of the cycle's instructions, with the handler's answer in it. -/

namespace Sys2Proof.Machine

/-- The handler's answer becomes the host context and the current task's registers (R132). -/
theorem callHandler_becomes {s : State} {t : Task} (ht : s.currentTask = some t) (k : Handler) (number : Word) :
    ∃ s', callHandler s t k number = .next s' ∧ s'.running = s.running ∧
      s'.reply = { code := .ok, handle := none } ∧ s'.draws = s.draws + 1 ∧
      s'.hostCtx = (Config.syscall k s.hostCtx t.regs number s.draws).1 ∧
      CurrentBecomes s s' { t with regs := (Config.syscall k s.hostCtx t.regs number s.draws).2 } := by
  have called := CurrentBecomes.setGlobals ht s.running
    (Config.syscall k s.hostCtx t.regs number s.draws).1 (s.draws + 1)
  exact ⟨_, rfl, rfl, rfl, rfl, rfl, (called.trans (.putTask called.current _ (by rfl))).answer .ok⟩

/-- Settles O46: with the predicate true, a number and a handler, SYS is the handler's answer. -/
theorem sysTakesTheHandlersAnswer : Obligations.SysTakesTheHandlersAnswer := by
  intro s t e a b v k ht hp hv hk
  have hexec : exec (.sys e a b) s = callHandler s t k v := by
    rw [exec, execSys_eq, withValue_some ht hv, if_pos hp, hk]
  obtain ⟨s', hnext, hrunning, hreply, hdraws, hctx, hbecomes⟩ := callHandler_becomes ht k v
  exact ⟨s', hexec.trans hnext, hbecomes.others, hrunning, hreply, hdraws, hctx, hbecomes.current⟩

end Sys2Proof.Machine
end

section
/-! PROOFS. What changes RUNNING over a cycle (40_cycle.md R88, 41_move_misc.md R106, 60_exceptions.md R138): END with its
predicate true, and CODE_OVERFLOW, which no instruction answers. -/

namespace Sys2Proof.Machine

/-- An instruction leaves RUNNING, or it is an END whose predicate holds, which answers OK. -/
theorem Effect.running_eq_or {s s' : State} {t : Task} {i : Instr} (h : Effect s t i s') :
    s'.running = s.running ∨
      (s'.reply.code = .ok ∧ ∃ e a b, i = .endVm e a b ∧ t.flags.holds e = true) := by
  cases h with
  | endRun e a b hp => exact .inr ⟨rfl, e, a, b, rfl, hp⟩
  | _ => exact .inl rfl

/-- CODE_OVERFLOW is the cycle's own answer: no instruction gives it (R104). -/
theorem Effect.code_ne_codeOverflow {s s' : State} {t : Task} {i : Instr} (h : Effect s t i s') :
    s'.reply.code ≠ .codeOverflow := by
  cases h <;> exact nofun

/-- A cycle changes RUNNING only by CODE_OVERFLOW or by an END whose predicate holds, and only while it is true. -/
theorem cycle_changes_running {s s' : State} (h : cycle s = .next s') (hchanged : s'.running ≠ s.running) :
    s.running = true ∧ (s'.reply.code = .codeOverflow ∨
      (s'.reply.code = .ok ∧ ∃ t e a b, s.fetches t (.endVm e a b) ∧ t.flags.holds e = true)) := by
  obtain ⟨-, rfl⟩ | ⟨hr, t, ht, ⟨-, rfl⟩ | ⟨i, rest, hd, hx⟩ | ⟨op, n, -, rfl⟩⟩ := cycle_next h
  · exact absurd rfl hchanged
  · exact ⟨hr, .inl rfl⟩
  · have heffect := exec_next (State.currentTask_putTask ht (t.advance_handle i.length)) hx
    obtain hsame | ⟨hok, e, a, b, rfl, hp⟩ := heffect.running_eq_or
    · exact absurd hsame hchanged
    · exact ⟨hr, .inr ⟨hok, t, e, a, b, ⟨hr, ht, rest, hd⟩, hp⟩⟩
  · exact absurd rfl hchanged

/-- A cycle that runs and finds a word does not answer CODE_OVERFLOW. -/
theorem code_ne_codeOverflow_of_word {s s' : State} {t : Task} {w : Word} {rest : List Word}
    (h : cycle s = .next s') (hr : s.running = true) (ht : s.currentTask = some t)
    (hw : s.fetchWords t.pc.toNat = w :: rest) : s'.reply.code ≠ .codeOverflow := by
  obtain ⟨hstopped, -⟩ | ⟨-, u, hu, ⟨hpast, -⟩ | ⟨i, _, -, hx⟩ | ⟨op, n, -, rfl⟩⟩ := cycle_next h
  · cases hr.symm.trans hstopped
  · cases ht.symm.trans hu
    rw [(s.fetchWords_eq_nil _).mpr hpast] at hw
    cases hw
  · exact (exec_next (State.currentTask_putTask hu (u.advance_handle i.length)) hx).code_ne_codeOverflow
  · exact nofun

/-- Settles O53: the record that `step_of_error` leaves has pc past the word and its literals, INV's entry or not. -/
theorem onlyEndAndCodeOverflowChangeRunning : Obligations.OnlyEndAndCodeOverflowChangeRunning := by
  intro s s' hc h
  have hcycle : cycle s = .next s' := (step_eq_cycle hc).symm.trans h
  refine ⟨cycle_changes_running hcycle, fun t w rest hr ht hw hok => ?_⟩
  have hover := code_ne_codeOverflow_of_word hcycle hr ht hw
  obtain ⟨w', rest', t', hw', ⟨_, hnext, hcurrent, -, -, hrunning, -⟩, ht'⟩ := step_of_error hc hr ht h hok hover
  cases hnext
  cases hw.symm.trans hw'
  refine ⟨hrunning.trans hr, t', hcurrent, ?_⟩
  obtain rfl | ⟨-, -, rfl⟩ := ht' <;> rfl

end Sys2Proof.Machine
end
